-- ==== Sys2Proof/Word.lean ====
section
/-! DEFINITION. The words of the block: the output byte, the accumulator word and the transition selector. -/

namespace Sys2Proof

/-- An 8-bit byte: the output byte OUT8 and the ROM entry LUTW (spec/30_encoding.md R64, R66). -/
abbrev Byte := BitVec 8

/-- The 12-bit accumulator register `acc`, which is also the ROM's index (spec/10_state.md R22, spec/20_memory.md R40). -/
abbrev AccWord := BitVec 12

/-- The 2-bit transition selector SEL2 (spec/30_encoding.md R62). -/
abbrev Sel := BitVec 2

/-- The 2-bit cause code CAUSE2 (spec/30_encoding.md R65). -/
abbrev CauseCode := BitVec 2

end Sys2Proof
end

