-- ==== Sys2Proof/Config.lean ====
section
/-! DEFINITION. The parameters of the hardware (spec/00_scope.md R8) and the values the spec leaves free. -/

namespace Sys2Proof

/-- The type of the parameter `CODE_TABLE`: the code value of each symbol index, in order of the index
(spec/42_lookup_table.md R120). Which tables are accepted is `CodeTable.check` (WellFormed). -/
abbrev CodeTable := List Nat

namespace Config

/-- `N_SYMBOLS` (spec/00_scope.md R8). -/
abbrev nSymbols : Nat := 128

/-- `DOMAIN` (spec/00_scope.md R8). -/
abbrev domain : Nat := 4096

/-- `SENTINEL`, the byte of `'?'`. PRESUMED: the number is the spec's decision D12 from general knowledge
(spec/41_emission.md R106); log 11. -/
def sentinel : Byte := 0x3F#8

/-- Cause code SYM (spec/30_encoding.md R65). -/
def causeSym : CauseCode := 0b00#2

/-- Cause code UNK (spec/30_encoding.md R65). -/
def causeUnk : CauseCode := 0b01#2

/-- Cause code OVF (spec/30_encoding.md R65). -/
def causeOvf : CauseCode := 0b10#2

/-! Free values: what each register holds from power-up until the first reset edge (spec/70_reset_and_hazards.md R192:
"each register is a free draw, not zero"); log 12. Nothing can be proved about them. -/

opaque powerUpLwz : Bool
opaque powerUpAcc : AccWord
opaque powerUpOvf : Bool
opaque powerUpInvert : Bool
opaque powerUpObufValid : Bool
opaque powerUpObufByte : Byte
opaque powerUpObufCause : CauseCode

end Config
end Sys2Proof
end

