-- ==== Sys2Proof/Machine/CodeTable.lean ====
section
/-! DEFINITION. Binary numerals of codes (spec/00_scope.md R10) and the default code table (spec/42_lookup_table.md R121). -/

namespace Sys2Proof

/-- The binary digits of `v`, least significant first, no zero at the top; `fuel` bounds the number of digits. -/
def binLow : Nat → Nat → List Bool
  | 0, _ => []
  | fuel + 1, v => if v = 0 then [] else (v % 2 == 1) :: binLow fuel (v / 2)

/-- `bin(v)`: the shortest binary numeral of `v`, most significant bit first; `bin(0)` is empty (spec/00_scope.md R10). -/
def bin (v : Nat) : List Bool := (binLow v v).reverse

/-- The string of bits contains `00`, two consecutive zeros. -/
def hasDoubleZero : List Bool → Bool
  | [] => false
  | b :: bs => (!b && bs.head? == some false) || hasDoubleZero bs

/-- `CODE_TABLE[s]`; 0, which is no code, for an index the table lacks. -/
def codeOf (t : CodeTable) (s : Nat) : Nat := t.getD s 0

/-- `pattern(s)`, the bit string `bin(CODE_TABLE[s])` (spec/00_scope.md R10). -/
def pattern (t : CodeTable) (s : Nat) : List Bool := bin (codeOf t s)

/-- The default `CODE_TABLE` of spec/42_lookup_table.md R121, eight symbols a line. PRESUMED: the spec marks it as general
knowledge (the standard PSK31 table); log 5. -/
def defaultCodeTable : CodeTable :=
  [683, 731, 749, 887, 747, 863, 751, 765] ++
  [767, 239, 29, 879, 733, 31, 885, 939] ++
  [759, 757, 941, 943, 859, 875, 877, 855] ++
  [891, 893, 951, 853, 861, 955, 763, 895] ++
  [1, 511, 351, 501, 475, 725, 699, 383] ++
  [251, 247, 367, 479, 117, 53, 87, 431] ++
  [183, 189, 237, 255, 375, 347, 363, 429] ++
  [427, 439, 245, 445, 493, 85, 471, 687] ++
  [701, 125, 235, 173, 181, 119, 219, 253] ++
  [341, 127, 509, 381, 215, 187, 221, 171] ++
  [213, 477, 175, 111, 109, 343, 437, 349] ++
  [373, 379, 685, 503, 495, 507, 703, 365] ++
  [735, 11, 95, 47, 45, 3, 61, 91] ++
  [43, 13, 491, 191, 27, 59, 15, 7] ++
  [63, 447, 21, 23, 5, 55, 123, 107] ++
  [223, 93, 469, 695, 443, 693, 727, 949]

end Sys2Proof
end

