-- ==== Sys2Proof/Machine/Memory.lean ====
section
/-! DEFINITION. The one memory of the block, the ROM, as a list of (address, byte) pairs in canonical form
(spec/20_memory.md R40, R42). -/

namespace Sys2Proof.Machine

/-- The contents of the ROM: addresses strictly rising, no byte equal to what an unlisted address reads as. -/
abbrev Memory := List Host.Cell

/-- What an unlisted address reads as: 8'h00, the entry of an index no code maps to (spec/42_lookup_table.md R122);
log 10. -/
def Memory.unlisted : Byte := 0x00#8

/-- The byte at an address. A read changes nothing (spec/20_memory.md R46). -/
def Memory.read : Memory → Nat → Byte
  | [], _ => Memory.unlisted
  | c :: m, a => if c.1 = a then c.2 else Memory.read m a

/-- Sets the byte at an address and keeps the canonical form. Only the construction of the ROM writes; no instruction does
(spec/20_memory.md R42). -/
def Memory.write : Memory → Nat → Byte → Memory
  | [], a, v => if v = Memory.unlisted then [] else [(a, v)]
  | c :: m, a, v =>
    if a < c.1 then (if v = Memory.unlisted then c :: m else (a, v) :: c :: m)
    else if a = c.1 then (if v = Memory.unlisted then m else (a, v) :: m)
    else c :: Memory.write m a v

/-- The canonical form: addresses strictly rising and inside the address space 0..4095 (spec/20_memory.md R40, R47), no
listed byte equal to the unlisted one. -/
abbrev Memory.wf (m : Memory) : Prop :=
  m.Pairwise (fun x y => x.1 < y.1) ∧ ∀ c ∈ m, c.1 < Config.domain ∧ c.2 ≠ Memory.unlisted

end Sys2Proof.Machine
end

