-- ==== Sys2Proof/Machine/Rom.lean ====
section
/-! DEFINITION. The construction of the lookup ROM from a code table (spec/42_lookup_table.md R122). -/

namespace Sys2Proof.Machine

/-- The valid ROM entry of symbol `s`: `{1'b1, s[6:0]}` (spec/30_encoding.md R66). -/
def lutWord (s : Nat) : Byte := 1#1 ++ BitVec.ofNat 7 s

/-- `LUT[i]` as spec/42_lookup_table.md R122 gives it: the valid entry of the symbol whose code is `i`, else 8'h00. -/
def lutEntry (t : CodeTable) (i : Nat) : Byte :=
  match t.findIdx? (· == i) with
  | some s => lutWord s
  | none => 0x00#8

/-- Enters the codes of `t` into `m`, the first of them as symbol `s`. -/
def enterCodes : CodeTable → Nat → Memory → Memory
  | [], _, m => m
  | c :: t, s, m => enterCodes t (s + 1) (m.write c (lutWord s))

/-- The ROM of a code table: every code at its symbol's entry, every other index unlisted. That it reads as `lutEntry` for
an accepted table is a statement. -/
def buildLut (t : CodeTable) : Memory := enterCodes t 0 []

end Sys2Proof.Machine
end

