-- ==== Sys2Proof/Syntax.lean ====
section
/-! DEFINITION. The instructions: one constructor per row of spec/opcode_table.json. -/

namespace Sys2Proof

/-- What the spec calls instructions (spec/00_scope.md R1): the four transitions of SEL2 (spec/30_encoding.md R62), the four
sub-cases of T00 (spec/41_emission.md R100) and the reset operation (spec/70_reset_and_hazards.md R190). The only operand of
any row is the pin `cfg_invert` of RESET. -/
inductive Instr where
  /-- T01: a one after a zero (spec/40_accumulation.md R82). -/
  | t01
  /-- T11: a one after a one (spec/40_accumulation.md R83). -/
  | t11
  /-- T10: a zero after a one (spec/40_accumulation.md R84). -/
  | t10
  /-- T00: a zero after a zero, the symbol boundary (spec/40_accumulation.md R85). -/
  | t00
  /-- BOUNDARY_IDLE: a boundary with nothing accumulated (spec/41_emission.md R101). -/
  | boundaryIdle
  /-- EMIT_OVERFLOW: the pattern passed the 12-bit domain (spec/41_emission.md R102). -/
  | emitOverflow
  /-- EMIT_UNKNOWN: in the domain, but no code maps to it (spec/41_emission.md R103). -/
  | emitUnknown
  /-- EMIT_SYMBOL: a code was recognised (spec/41_emission.md R104). -/
  | emitSymbol
  /-- RESET: construction of an instance, with the value of the pin `cfg_invert` (spec/70_reset_and_hazards.md R190). -/
  | reset (cfgInvert : Bool)
deriving DecidableEq, Repr

end Sys2Proof
end

