-- ==== Sys2Proof/WellFormed.lean ====
section
/-! DEFINITION. The checks the spec makes on what it is given: a code table, an input unit, a ROM entry, and the condition
under which the state selects an instruction. -/

namespace Sys2Proof

/-- Which condition of spec/42_lookup_table.md R120 a refused code table breaks. -/
inductive CodeTableDefect where
  /-- The table is not 128 integers. -/
  | notNSymbols
  /-- Condition 1: some entry is outside 1..4095. -/
  | outOfRange
  /-- Condition 2: some `bin(CODE_TABLE[s])` contains `00`. -/
  | doubleZero
  /-- Condition 3: some `bin(CODE_TABLE[s])` does not end with 1. -/
  | endsInZero
  /-- Condition 4: two entries are equal. -/
  | duplicate
deriving DecidableEq, Repr

/-- Conditions 1 to 3 of spec/42_lookup_table.md R120 for one entry. -/
def CodeTable.entryDefect (c : Nat) : Option CodeTableDefect :=
  if c = 0 ∨ Config.domain ≤ c then some .outOfRange
  else if hasDoubleZero (bin c) then some .doubleZero
  else if (bin c).getLast? ≠ some true then some .endsInZero
  else none

/-- The check of spec/42_lookup_table.md R120: `none` for an accepted table, else a condition that is
broken; log 13. -/
def CodeTable.check (t : CodeTable) : Option CodeTableDefect :=
  if t.length ≠ Config.nSymbols then some .notNSymbols
  else match t.findSome? CodeTable.entryDefect with
    | some d => some d
    | none => if t.Nodup then none else some .duplicate

/-- A table the spec accepts (spec/42_lookup_table.md R120). -/
abbrev CodeTable.Accepted (t : CodeTable) : Prop := CodeTable.check t = none

/-- The input unit that a number stands for: 0 or 1. Any other number is no unit (spec/30_encoding.md R67). -/
def unitOf? (v : Nat) : Option Bool :=
  if v = 0 then some false else if v = 1 then some true else none

/-- ROM entries that construction produces: with `valid = 0` the symbol field is 0 (spec/30_encoding.md R66, R67). -/
def lutEntryWf (entry : Byte) : Bool := entry[7] || entry == 0#8

/-- The state and the effective bit select this instruction: SEL2 as in the opcode table's row, and for a sub-case of T00
the row's condition (spec/30_encoding.md R62, spec/41_emission.md R100 to R104). `entry` is `LUT[acc]`. A reset is selected
by the pin `rst` and by nothing in the state. -/
def Instr.selectedBy (i : Instr) (lwz e : Bool) (acc : AccWord) (ovf : Bool) (entry : Byte) : Bool :=
  match i with
  | .t01 => lwz && e
  | .t11 => !lwz && e
  | .t10 => !lwz && !e
  | .t00 => lwz && !e
  | .boundaryIdle => lwz && !e && (!ovf && acc == 0#12)
  | .emitOverflow => lwz && !e && ovf
  | .emitUnknown => lwz && !e && (!ovf && acc != 0#12 && !entry[7])
  | .emitSymbol => lwz && !e && (!ovf && acc != 0#12 && entry[7])
  | .reset _ => true

/-- An instruction that is no sub-case: the ones the code word alone determines. -/
def Instr.isWhole : Instr → Bool
  | .t01 | .t11 | .t10 | .t00 | .reset _ => true
  | .boundaryIdle | .emitOverflow | .emitUnknown | .emitSymbol => false

end Sys2Proof
end

