-- ==== Sys2Proof/Machine/State.lean ====
section
/-! DEFINITION. The state of one instance (spec/10_state.md R20), the host's side of it, the reasons to stop, and the state
after reset. -/

namespace Sys2Proof.Machine

/-- The decode state `S = (lwz, acc, ovf)` (spec/10_state.md R20): all that the transaction level reads and writes. -/
structure DecodeState where
  /-- `last_was_zero` (R21). -/
  lwz : Bool
  /-- The low 12 bits of the source's `accumulated` (R22). -/
  acc : AccWord
  /-- `accumulated ≥ 4096` (R23). -/
  ovf : Bool
deriving DecidableEq, Repr

/-- An output item: the byte and its cause code (spec/00_scope.md R6). -/
structure Item where
  byte : Byte
  cause : CauseCode
deriving DecidableEq, Repr

/-- The values of the input pins at one rising edge of `clk` (spec/43_stream_interface.md R140); log 15. -/
structure Pins where
  rst : Bool
  cfgInvert : Bool
  inValid : Bool
  inBit : Bool
  outReady : Bool
deriving DecidableEq, Repr

/-- The host's side (spec/43_stream_interface.md R155), no part of the block: no register of the block is ever computed from
the two records. -/
structure HostSide where
  /-- The input pins at the coming edges, first edge first. When the list is empty the clock stands still; log 1. -/
  edges : List Pins
  /-- The units of the input transfers since the last reset edge, oldest first; log 3. -/
  unitsTaken : List Bool
  /-- The items of the output transfers since the last reset edge, oldest first; log 3. -/
  itemsTaken : List Item
deriving DecidableEq, Repr

/-- The state: the elements of spec/10_state.md R20, and the host's side. -/
structure State where
  /-- `lwz`, `acc` and `ovf` (R21 to R23). -/
  dec : DecodeState
  /-- `invert_q` (R24). -/
  invertQ : Bool
  /-- `obuf_valid` (R25). -/
  obufValid : Bool
  /-- `obuf_byte` (R25). -/
  obufByte : Byte
  /-- `obuf_cause` (R25). -/
  obufCause : CauseCode
  /-- `LUT` (R26). -/
  lut : Memory
  /-- What drives the pins and what has been taken; not the spec's state. -/
  host : HostSide
deriving DecidableEq, Repr

/-- The block has no fault: "no exception, trap or fault mechanism" (spec/60_exceptions.md R170). Empty, hence safe: nobody
raises one; log 14. -/
inductive Fault where
deriving DecidableEq, Repr

/-- The refusals. Neither `exec` nor `step` answers with one of the last two (spec/60_exceptions.md R173). -/
inductive Refusal where
  /-- Raised by an arm of `exec` whose instruction has no meaning yet. No arm raises it now. Safe. -/
  | notModelled (mnemonic : String)
  /-- Raised by `decodeWideUnit` for an input unit other than 0 or 1 (spec/30_encoding.md R67). Safe. -/
  | unitNotBinary (v : Nat)
  /-- Raised by `construct` and `State.powerUp` for a code table that breaks spec/42_lookup_table.md R120. Safe. -/
  | codeTable (d : CodeTableDefect)
deriving DecidableEq, Repr

/-- The decode state after reset, and after every T00 (spec/70_reset_and_hazards.md R190, spec/41_emission.md R105). -/
def DecodeState.start : DecodeState := { lwz := true, acc := 0#12, ovf := false }

/-- The host's side with nothing placed and nothing taken. -/
def HostSide.idle : HostSide := { edges := [], unitsTaken := [], itemsTaken := [] }

/-- The machine after a reset edge (spec/70_reset_and_hazards.md R190) with `cfg_invert = 0` (DESIGN CHOICE, log 4), the ROM
of the default code table (PRESUMED, log 5), and nothing placed on the pins (log 1). -/
def State.reset : State where
  dec := DecodeState.start
  invertQ := false
  obufValid := false
  obufByte := 0x00#8
  obufCause := 0b00#2
  lut := buildLut defaultCodeTable
  host := HostSide.idle

end Sys2Proof.Machine
end

