-- ==== Sys2Proof/Machine/Flags.lean ====
section
/-! DEFINITION. The computations of the sticky overflow flag (spec/10_state.md R23), and the test for an empty accumulator. -/

namespace Sys2Proof.Machine

/-- `ovf | acc[11] | acc[10]` (spec/40_accumulation.md R82). -/
def ovfAfter01 (d : DecodeState) : Bool := d.ovf || d.acc[11] || d.acc[10]

/-- `ovf | acc[11]` (spec/40_accumulation.md R83). -/
def ovfAfter1 (d : DecodeState) : Bool := d.ovf || d.acc[11]

/-- `ovf == 0 && acc == 0`: nothing accumulated (spec/41_emission.md R100). -/
def nothingAccumulated (d : DecodeState) : Bool := !d.ovf && d.acc == 0#12

end Sys2Proof.Machine
end

