-- ==== Sys2Proof/Machine/Operands.lean ====
section
/-! DEFINITION. What the transitions read and how they form their results: the effective bit, the selector, the accumulator
with bits appended, the fields of a ROM entry. -/

namespace Sys2Proof.Machine

/-- `e = b ^ invert_q` (spec/30_encoding.md R61). -/
def effectiveBit (b invertQ : Bool) : Bool := b ^^ invertQ

/-- SEL2 = `{lwz, e}` (spec/30_encoding.md R62). -/
def selector (lwz e : Bool) : Sel := BitVec.ofBool lwz ++ BitVec.ofBool e

/-- `{acc[9:0], 2'b01}` (spec/40_accumulation.md R82). -/
def append01 (acc : AccWord) : AccWord := acc.extractLsb' 0 10 ++ 0b01#2

/-- `{acc[10:0], 1'b1}` (spec/40_accumulation.md R83). -/
def append1 (acc : AccWord) : AccWord := acc.extractLsb' 0 11 ++ 1#1

/-- `LUT[acc]` (spec/20_memory.md R41). -/
def lutAt (lut : Memory) (acc : AccWord) : Byte := lut.read acc.toNat

/-- `LUT[i][7]`, the valid bit (spec/30_encoding.md R66). -/
def lutValid (entry : Byte) : Bool := entry[7]

/-- `LUT[i][6:0]`, the symbol index (spec/30_encoding.md R66). -/
def lutSym (entry : Byte) : BitVec 7 := entry.extractLsb' 0 7

/-- `zext_8` (spec/00_scope.md R10). -/
def zext8 (v : BitVec 7) : Byte := v.setWidth 8

end Sys2Proof.Machine
end

