-- ==== Sys2Proof/Machine/Ops.lean ====
section
/-! DEFINITION. The shared operations: writing back a decode step, the two transfers' bookkeeping, construction of an
instance, and the state before the first reset. There is no operation of taking an exception or returning from one: the
block has none (spec/60_exceptions.md R170, R176). -/

namespace Sys2Proof.Machine

/-- Places an item in the output buffer (spec/43_stream_interface.md R145), or leaves the buffer alone. -/
def State.placeItem (s : State) : Option Item → State
  | none => s
  | some it => { s with obufValid := true, obufByte := it.byte, obufCause := it.cause }

/-- Writes back what one decode step gives: the decode state, and the item if there is one (R145). -/
def State.commit (s : State) (r : DecodeState × Option Item) : State :=
  State.placeItem { s with dec := r.1 } r.2

/-- The item in the output buffer, as the pins `out_byte` and `out_cause` show it (R142). -/
def State.shownItem (s : State) : Item := { byte := s.obufByte, cause := s.obufCause }

/-- The items that wait in the output buffer: one or none (spec/10_state.md R25). -/
def State.waiting (s : State) : List Item := if s.obufValid then [s.shownItem] else []

/-- An output transfer (spec/43_stream_interface.md R144): the consumer has the item, the buffer is empty. `obuf_byte` and
`obuf_cause` keep their values (spec/10_state.md R25). -/
def State.giveItem (s : State) : State :=
  { s with obufValid := false, host := { s.host with itemsTaken := s.host.itemsTaken ++ [s.shownItem] } }

/-- An input transfer (spec/43_stream_interface.md R143), as the host observes it. -/
def State.recordUnit (s : State) (b : Bool) : State :=
  { s with host := { s.host with unitsTaken := s.host.unitsTaken ++ [b] } }

/-- The same block with other values to come on the pins. -/
def State.withEdges (s : State) (ps : List Pins) : State := { s with host := { s.host with edges := ps } }

/-- A new instance with the same ROM (spec/70_reset_and_hazards.md R190, R191). The host's records start anew (log 3). -/
def State.constructed (s : State) (cfgInvert : Bool) : State :=
  { s with
    dec := DecodeState.start
    invertQ := cfgInvert
    obufValid := false
    obufByte := 0x00#8
    obufCause := 0b00#2
    host := { s.host with unitsTaken := [], itemsTaken := [] } }

/-- The instance `s` with the ROM of a given `CODE_TABLE`, if spec/42_lookup_table.md R120 accepts the table; any other
configuration is refused. Every instance that is made from a table is made here. -/
def withTable (t : CodeTable) (s : State) : Host.Outcome State Fault Refusal :=
  match CodeTable.check t with
  | some d => .refused (.codeTable d)
  | none => .next { s with lut := buildLut t }

/-- An instance with a given `CODE_TABLE` and inversion flag (spec/00_scope.md R8): the state after its reset edge. -/
def construct (t : CodeTable) (cfgInvert : Bool) : Host.Outcome State Fault Refusal :=
  withTable t { State.reset with invertQ := cfgInvert }

/-- The registers from power-up until the first reset edge: every one a free value (spec/70_reset_and_hazards.md R192),
the given values to come on the pins; log 12. -/
def State.unreset (edges : List Pins) : State where
  dec := { lwz := Config.powerUpLwz, acc := Config.powerUpAcc, ovf := Config.powerUpOvf }
  invertQ := Config.powerUpInvert
  obufValid := Config.powerUpObufValid
  obufByte := Config.powerUpObufByte
  obufCause := Config.powerUpObufCause
  lut := []
  host := { HostSide.idle with edges := edges }

/-- An instance with a given `CODE_TABLE` before its first reset edge (R192), the ROM present from power-up
(spec/42_lookup_table.md R123). -/
def State.powerUp (t : CodeTable) (edges : List Pins) : Host.Outcome State Fault Refusal :=
  withTable t (State.unreset edges)

end Sys2Proof.Machine
end

