-- ==== Sys2Proof/Machine/Accumulation.lean ====
section
/-! DEFINITION. T01, T11 and T10: the sub-block bit_accumulator_with_terminator_detection (spec/40_accumulation.md). Each has
its effect on the decode state, which the transaction level uses, and its meaning as an instruction. -/

namespace Sys2Proof.Machine

/-- T01 on the decode state (spec/40_accumulation.md R82). -/
def effectT01 (d : DecodeState) : DecodeState × Option Item :=
  ({ lwz := false, acc := append01 d.acc, ovf := ovfAfter01 d }, none)

/-- T11 on the decode state (spec/40_accumulation.md R83). -/
def effectT11 (d : DecodeState) : DecodeState × Option Item :=
  ({ lwz := false, acc := append1 d.acc, ovf := ovfAfter1 d }, none)

/-- T10 on the decode state (spec/40_accumulation.md R84): the zero is pending. -/
def effectT10 (d : DecodeState) : DecodeState × Option Item :=
  ({ d with lwz := true }, none)

/-- T01: a one after a zero (spec/40_accumulation.md R82). -/
def execT01 (s : State) : Host.Outcome State Fault Refusal := .next (s.commit (effectT01 s.dec))

/-- T11: a one after a one (spec/40_accumulation.md R83). -/
def execT11 (s : State) : Host.Outcome State Fault Refusal := .next (s.commit (effectT11 s.dec))

/-- T10: a zero after a one (spec/40_accumulation.md R84). -/
def execT10 (s : State) : Host.Outcome State Fault Refusal := .next (s.commit (effectT10 s.dec))

end Sys2Proof.Machine
end

