-- ==== Sys2Proof/Machine/Construction.lean ====
section
/-! DEFINITION. RESET (spec/70_reset_and_hazards.md R190, R191). -/

namespace Sys2Proof.Machine

/-- RESET: a new instance with the given `cfg_invert` and the same ROM (spec/70_reset_and_hazards.md R190, R191). -/
def execReset (cfgInvert : Bool) (s : State) : Host.Outcome State Fault Refusal := .next (s.constructed cfgInvert)

end Sys2Proof.Machine
end

