-- ==== Sys2Proof/Machine/Emission.lean ====
section
/-! DEFINITION. T00 and its four sub-cases: emission at a symbol boundary (spec/40_accumulation.md R85,
spec/41_emission.md). -/

namespace Sys2Proof.Machine

/-- The output of EMIT_OVERFLOW (spec/41_emission.md R102). -/
def overflowItem : Item := { byte := Config.sentinel, cause := Config.causeOvf }

/-- The output of EMIT_UNKNOWN (spec/41_emission.md R103). -/
def unknownItem : Item := { byte := Config.sentinel, cause := Config.causeUnk }

/-- The output of EMIT_SYMBOL from the ROM entry read (spec/41_emission.md R104). -/
def symbolItem (entry : Byte) : Item := { byte := zext8 (lutSym entry), cause := Config.causeSym }

/-- `boundary(acc, ovf)`: the output of T00, its conditions in the fixed order of spec/41_emission.md R100. -/
def boundary (lut : Memory) (d : DecodeState) : Option Item :=
  if nothingAccumulated d then none
  else if d.ovf then some overflowItem
  else if !lutValid (lutAt lut d.acc) then some unknownItem
  else some (symbolItem (lutAt lut d.acc))

/-- T00 on the decode state: the boundary's output, and the update that ends every T00 (spec/40_accumulation.md R85,
spec/41_emission.md R105). -/
def effectT00 (lut : Memory) (d : DecodeState) : DecodeState × Option Item := (DecodeState.start, boundary lut d)

/-- T00: a zero after a zero, the symbol boundary (spec/40_accumulation.md R85). -/
def execT00 (s : State) : Host.Outcome State Fault Refusal := .next (s.commit (effectT00 s.lut s.dec))

/-- BOUNDARY_IDLE: no output (spec/41_emission.md R101, R105). -/
def execBoundaryIdle (s : State) : Host.Outcome State Fault Refusal := .next (s.commit (DecodeState.start, none))

/-- EMIT_OVERFLOW: the sentinel with cause OVF; `acc` is not read (spec/41_emission.md R102, R105). -/
def execEmitOverflow (s : State) : Host.Outcome State Fault Refusal :=
  .next (s.commit (DecodeState.start, some overflowItem))

/-- EMIT_UNKNOWN: the sentinel with cause UNK (spec/41_emission.md R103, R105). -/
def execEmitUnknown (s : State) : Host.Outcome State Fault Refusal :=
  .next (s.commit (DecodeState.start, some unknownItem))

/-- EMIT_SYMBOL: the byte equal to the symbol index, cause SYM (spec/41_emission.md R104, R105). -/
def execEmitSymbol (s : State) : Host.Outcome State Fault Refusal :=
  .next (s.commit (DecodeState.start, some (symbolItem (lutAt s.lut s.dec.acc))))

end Sys2Proof.Machine
end

