-- ==== Sys2Proof/Machine/Dispatch.lean ====
section
/-! DEFINITION. The meaning of each instruction, one arm per constructor of Instr. Given an instruction that the state
does not select, it carries out the row's pseudocode; no step does that (log 7). -/

namespace Sys2Proof.Machine

def exec (i : Instr) (s : State) : Host.Outcome State Fault Refusal :=
  match i with
  | .t01 => Sys2Proof.Machine.execT01 s
  | .t11 => Sys2Proof.Machine.execT11 s
  | .t10 => Sys2Proof.Machine.execT10 s
  | .t00 => Sys2Proof.Machine.execT00 s
  | .boundaryIdle => Sys2Proof.Machine.execBoundaryIdle s
  | .emitOverflow => Sys2Proof.Machine.execEmitOverflow s
  | .emitUnknown => Sys2Proof.Machine.execEmitUnknown s
  | .emitSymbol => Sys2Proof.Machine.execEmitSymbol s
  | .reset cfgInvert => Sys2Proof.Machine.execReset cfgInvert s

end Sys2Proof.Machine
end

