-- ==== Sys2Proof/Decode.lean ====
section
/-! DEFINITION. The opcode map (spec/30_encoding.md R62), total, and the encoder, written from the same rows of
spec/opcode_table.json. -/

namespace Sys2Proof

/-- What selects an operation at a clock edge: the pin `rst` with `cfg_invert` beside it (format CTRL), or the selector of an
accepted unit (format SEL2). RESET has no word: "control pin rst = 1 at a rising edge of clk (not an input unit)"; log 9. -/
inductive Code where
  | ctrl (cfgInvert : Bool)
  | sel (v : Sel)
deriving DecidableEq, Repr

/-- Why bytes are no instruction. -/
inductive DecodeError where
  /-- There is no byte to read. -/
  | noWord
  /-- The byte is no 2-bit selector: a bit above SEL2's two is set. DESIGN CHOICE, log 8. -/
  | widerThanSel2 (b : Byte)
deriving DecidableEq, Repr

/-- The four values of SEL2, every one defined (spec/30_encoding.md R62): `v[1]` is `lwz`, `v[0]` the effective bit. -/
def decodeSel (v : Sel) : Instr :=
  match v[1], v[0] with
  | true, true => .t01
  | false, true => .t11
  | false, false => .t10
  | true, false => .t00

/-- The instruction a code stands for. T00's word decodes to T00; its sub-case is `subCase`; log 6. -/
def decode : Code → Instr
  | .ctrl c => .reset c
  | .sel v => decodeSel v

/-- The sub-case of T00, in the fixed order of spec/41_emission.md R100; `entry` is `LUT[acc]`. -/
def subCase (acc : AccWord) (ovf : Bool) (entry : Byte) : Instr :=
  if !ovf && acc == 0#12 then .boundaryIdle
  else if ovf then .emitOverflow
  else if !entry[7] then .emitUnknown
  else .emitSymbol

/-- Decoding down to the row that applies: T00 gives way to its sub-case (spec/30_encoding.md R62: "T00 splits into four
sub-cases"). -/
def decodeRow (c : Code) (acc : AccWord) (ovf : Bool) (entry : Byte) : Instr :=
  match decode c with
  | .t00 => subCase acc ovf entry
  | i => i

/-- One instruction read from the front of a list of bytes, a selector in bits 1..0 of its byte, and the bytes after it. -/
def decodeBytes : List Byte → Except DecodeError (Instr × List Byte)
  | [] => .error .noWord
  | b :: rest => if b.toNat < 4 then .ok (decodeSel (b.setWidth 2), rest) else .error (.widerThanSel2 b)

/-- A sequence of instructions, a byte each, or the reason why the first byte that is none is refused. -/
def decodeAll : List Byte → Except DecodeError (List Instr)
  | [] => .ok []
  | b :: rest =>
    match decodeBytes (b :: rest), decodeAll rest with
    | .error r, _ => .error r
    | .ok _, .error r => .error r
    | .ok (i, _), .ok is => .ok (i :: is)

/-- The low `n` bytes of `w`, least significant byte first. -/
def bytesOf : Nat → Nat → List Byte
  | 0, _ => []
  | n + 1, w => BitVec.ofNat 8 w :: bytesOf n (w / 256)

/-- What the decoder reads from an instruction whose bits are `w`, as spec/opcode_table.json numbers them. -/
def decodeTableWord (nbits w : Nat) : Option Instr :=
  match decodeBytes (bytesOf ((nbits + 7) / 8) w) with
  | .ok r => some r.1
  | .error _ => none

/-- The code of each row of spec/opcode_table.json. The sub-cases have T00's selector. -/
def encode : Instr → Code
  | .t01 => .sel 0b11#2
  | .t11 => .sel 0b01#2
  | .t10 => .sel 0b00#2
  | .t00 => .sel 0b10#2
  | .boundaryIdle => .sel 0b10#2
  | .emitOverflow => .sel 0b10#2
  | .emitUnknown => .sel 0b10#2
  | .emitSymbol => .sel 0b10#2
  | .reset c => .ctrl c

/-- The bytes of an instruction: none for RESET, which has no word. -/
def encodeBytes (i : Instr) : List Byte :=
  match encode i with
  | .sel v => [v.setWidth 8]
  | .ctrl _ => []

end Sys2Proof
end

