-- ==== Sys2Proof/Machine/Handshake.lean ====
section
/-! DEFINITION. The output pins and the transfers of a cycle (spec/43_stream_interface.md R141 to R144). -/

namespace Sys2Proof.Machine

/-- `in_ready = !rst && (!obuf_valid || out_ready)` (spec/43_stream_interface.md R141). -/
def inReady (p : Pins) (s : State) : Bool := !p.rst && (!s.obufValid || p.outReady)

/-- `out_valid = obuf_valid && !rst` (spec/43_stream_interface.md R142). -/
def outValid (p : Pins) (s : State) : Bool := s.obufValid && !p.rst

/-- `out_byte = obuf_byte` (spec/43_stream_interface.md R142); no meaning unless `out_valid = 1`, log 16. -/
def outByte (s : State) : Byte := s.obufByte

/-- `out_cause = obuf_cause` (spec/43_stream_interface.md R142); no meaning unless `out_valid = 1`, log 16. -/
def outCause (s : State) : CauseCode := s.obufCause

/-- An input transfer happens at this edge (spec/43_stream_interface.md R143). -/
def inFire (p : Pins) (s : State) : Bool := !p.rst && p.inValid && inReady p s

/-- An output transfer happens at this edge (spec/43_stream_interface.md R144). -/
def outFire (p : Pins) (s : State) : Bool := !p.rst && outValid p s && p.outReady

/-- What the transfers of an edge do besides the decode step: the waiting item leaves, the unit is taken. At an edge with
`rst = 1` there is no transfer (spec/60_exceptions.md R174). -/
def transfers (p : Pins) (s : State) : State :=
  let s1 := if outFire p s then s.giveItem else s
  if inFire p s then s1.recordUnit p.inBit else s1

end Sys2Proof.Machine
end

