-- ==== Sys2Proof/Machine/Fetch.lean ====
section
/-! DEFINITION. How an edge selects its operation, and how a table word is put where the next edge selects it. -/

namespace Sys2Proof.Machine

/-- The code that selects the operation of an edge: the pin `rst` first (spec/60_exceptions.md R174), else the selector
formed from `lwz` and the effective bit (spec/30_encoding.md R62). -/
def fetchCode (p : Pins) (s : State) : Code :=
  if p.rst then .ctrl p.cfgInvert else .sel (selector s.dec.lwz (effectiveBit p.inBit s.invertQ))

/-- An operation is carried out at this edge: a reset, or the step of an accepted unit. -/
def edgeRuns (p : Pins) (s : State) : Bool := p.rst || inFire p s

/-- The pins of an edge that offers unit `b` to the block and is ready to take an item. -/
def offerPins (b : Bool) : Pins :=
  { rst := false, cfgInvert := false, inValid := true, inBit := b, outReady := true }

/-- Puts selector `w` where the next edge forms it: `w[1]` in `lwz`, and an edge that offers the unit whose effective bit is
`w[0]`. A number that is no selector is placed nowhere (log 8). -/
def State.placeSelector (s : State) (w : Nat) : State :=
  if w < 4 then
    { s with
      dec := { s.dec with lwz := w.testBit 1 }
      host := { s.host with edges := offerPins (w.testBit 0 ^^ s.invertQ) :: s.host.edges } }
  else s

end Sys2Proof.Machine
end

