-- ==== Sys2Proof/Machine/Cycle.lean ====
section
/-! DEFINITION. The cycle step: one rising edge of `clk` (spec/43_stream_interface.md R145). -/

namespace Sys2Proof.Machine

/-- One rising edge with the given pins: the transfers, then the operation the edge selects, if it selects one. -/
def clockEdge (p : Pins) (s : State) : Host.Outcome State Fault Refusal :=
  if edgeRuns p s then exec (decode (fetchCode p s)) (transfers p s) else .next (transfers p s)

/-- The next edge of the host's list. With none left the clock stands still and nothing changes (spec/60_exceptions.md R179;
log 1). -/
def nextEdge (s : State) : Host.Outcome State Fault Refusal :=
  match s.host.edges with
  | [] => .next s
  | p :: rest => clockEdge p (s.withEdges rest)

end Sys2Proof.Machine
end

