-- ==== Sys2Proof/Machine/Step.lean ====
section
/-! DEFINITION. The step: one rising edge of `clk`. -/

namespace Sys2Proof.Machine

/-- One step of the machine (log 2; times are left out, log 18). -/
def step (s : State) : Host.Outcome State Fault Refusal := nextEdge s

/-- `s` with a table word placed so that the next step runs it (log 1). -/
def State.withFetchWord (s : State) (nbits w : Nat) : State := s.placeSelector (w % 2 ^ (8 * ((nbits + 7) / 8)))

end Sys2Proof.Machine
end

