-- ==== Sys2Proof/Machine/BitProgram.lean ====
section
/-! DEFINITION. Bit programs and their pseudo-instructions (spec/30_encoding.md R69), and the edges that feed a program to
the block. -/

namespace Sys2Proof.Machine

/-- `FLUSH` (spec/30_encoding.md R69). -/
def flushUnits : List Bool := [false, false]

/-- `IDLE(n)` (spec/30_encoding.md R69). -/
def idleUnits (n : Nat) : List Bool := List.replicate n false

/-- `ONES(n)` (spec/30_encoding.md R69). -/
def onesUnits (n : Nat) : List Bool := List.replicate n true

/-- `SYM(c)`: `pattern(c)` followed by `00` (spec/30_encoding.md R69). -/
def symUnits (t : CodeTable) (c : Nat) : List Bool := pattern t c ++ flushUnits

/-- `INV(p)`: every unit complemented (spec/30_encoding.md R69). -/
def invUnits (p : List Bool) : List Bool := p.map (!·)

/-- A stream of symbols, each with its number of idle zeros after it (spec/42_lookup_table.md R126). -/
def symbolStream (t : CodeTable) : List (Nat × Nat) → List Bool
  | [] => []
  | (c, n) :: rest => symUnits t c ++ idleUnits n ++ symbolStream t rest

/-- The chunks of a bit program's text: `0` and `1` are units, spaces are ignored, `|` ends a chunk (spec/30_encoding.md
R69). Text with any other character is no bit program; log 19. -/
def parseProgram : List Char → Option (List (List Bool))
  | [] => some [[]]
  | c :: cs =>
    match parseProgram cs with
    | none => none
    | some [] => none
    | some (u :: us) =>
      if c = '0' then some ((false :: u) :: us)
      else if c = '1' then some ((true :: u) :: us)
      else if c = ' ' then some (u :: us)
      else if c = '|' then some ([] :: u :: us)
      else none

/-- The edges of a producer that offers a unit at every edge to a consumer that is always ready. -/
def feed (u : List Bool) : List Pins := u.map offerPins

end Sys2Proof.Machine
end

