-- ==== Sys2Proof/Machine/Stream.lean ====
section
/-! DEFINITION. The transaction level: the decode step (spec/40_accumulation.md R80), the decode operation and its resumption
(spec/43_stream_interface.md R149, R150). -/

namespace Sys2Proof.Machine

/-- `decode_step`: one accepted input unit (spec/40_accumulation.md R80). -/
def decodeStep (lut : Memory) (invertQ : Bool) (d : DecodeState) (b : Bool) : DecodeState × Option Item :=
  let sel := selector d.lwz (effectiveBit b invertQ)
  if sel = 0b11#2 then effectT01 d
  else if sel = 0b01#2 then effectT11 d
  else if sel = 0b00#2 then effectT10 d
  else effectT00 lut d

/-- The decode step of a model input wider than one bit: any value but 0 and 1 is refused (spec/30_encoding.md R67). -/
def decodeWideUnit (lut : Memory) (invertQ : Bool) (d : DecodeState) (v : Nat) : Except Refusal (DecodeState × Option Item) :=
  match unitOf? v with
  | some b => .ok (decodeStep lut invertQ d b)
  | none => .error (.unitNotBinary v)

/-- A step function applied to units in turn: the last state, and the items in the order they were made. -/
def runUnits {σ : Type} (f : σ → Bool → σ × Option Item) : σ → List Bool → σ × List Item
  | d, [] => (d, [])
  | d, b :: bs => ((runUnits f (f d b).1 bs).1, (f d b).2.toList ++ (runUnits f (f d b).1 bs).2)

/-- `decode_step` applied to units in turn: `outputs(S_0, u_1 .. u_n)` of spec/43_stream_interface.md R148, with the state. -/
def decodeUnits (lut : Memory) (invertQ : Bool) : DecodeState → List Bool → DecodeState × List Item :=
  runUnits (decodeStep lut invertQ)

/-- What one call of the decode operation reports (spec/43_stream_interface.md R149). -/
structure ChunkResult where
  state : DecodeState
  items : List Item
  consumed : Nat
  produced : Nat
deriving DecidableEq, Repr

/-- The loop of `decode_chunk`: `i` units consumed and `items` made so far. -/
def decodeChunkLoop (lut : Memory) (invertQ : Bool) (cap : Nat) : DecodeState → List Bool → Nat → List Item → ChunkResult
  | d, [], i, items => { state := d, items := items, consumed := i, produced := items.length }
  | d, b :: bs, i, items =>
    if items.length < cap then
      decodeChunkLoop lut invertQ cap (decodeStep lut invertQ d b).1 bs (i + 1) (items ++ (decodeStep lut invertQ d b).2.toList)
    else { state := d, items := items, consumed := i, produced := items.length }

/-- `decode_chunk(S, u, cap)` (spec/43_stream_interface.md R149): it stops taking units as soon as `cap` items exist;
log 17. -/
def decodeChunk (lut : Memory) (invertQ : Bool) (d : DecodeState) (u : List Bool) (cap : Nat) : ChunkResult :=
  decodeChunkLoop lut invertQ cap d u 0 []

/-- What a caller holds between calls: the decode state, the items so far and the units not yet consumed. -/
structure CallerState where
  state : DecodeState
  items : List Item
  rest : List Bool
deriving DecidableEq, Repr

/-- A caller that makes one call after another, each with at most `n` of the units not yet consumed and room for `cap` items,
and resumes after each with the units not consumed (spec/43_stream_interface.md R150). -/
def decodeCalls (lut : Memory) (invertQ : Bool) : CallerState → List (Nat × Nat) → CallerState
  | c, [] => c
  | c, (n, cap) :: calls =>
    let r := decodeChunk lut invertQ c.state (c.rest.take n) cap
    decodeCalls lut invertQ
      { state := r.state, items := c.items ++ r.items, rest := c.rest.drop r.consumed } calls

end Sys2Proof.Machine
end

