-- ==== Sys2Proof/Machine/Reference.lean ====
section
/-! DEFINITION. The source's unbounded form of the accumulator (spec/10_state.md R27, spec/42_lookup_table.md R124) and its
wrapping forms (spec/40_accumulation.md R87): references that the register form must agree with. -/

namespace Sys2Proof.Machine

/-- The source's decoder state: `last_was_zero` and the unbounded `accumulated`, called `A`. -/
structure SourceState where
  lwz : Bool
  A : Nat
deriving DecidableEq, Repr

/-- The source's state at construction (spec/70_reset_and_hazards.md R190). -/
def SourceState.start : SourceState := { lwz := true, A := 0 }

/-- What the lookup function answers. -/
inductive Lookup where
  | unknown
  | symbol (s : BitVec 7)
deriving DecidableEq, Repr

/-- `lookup(A)` with its bound check (spec/42_lookup_table.md R124). -/
def lookup (lut : Memory) (A : Nat) : Lookup :=
  if Config.domain ≤ A then .unknown
  else if !lutValid (lut.read A) then .unknown
  else .symbol (lutSym (lut.read A))

/-- The source's emission policy, invoked at a boundary (spec/41_emission.md R100). -/
def sourceBoundary (lut : Memory) (A : Nat) : Option Item :=
  if A = 0 then none
  else if Config.domain ≤ A then some overflowItem
  else match lookup lut A with
    | .unknown => some unknownItem
    | .symbol s => some { byte := zext8 s, cause := Config.causeSym }

/-- One unit in the source's form (spec/40_accumulation.md R82 to R85, "source form"). -/
def sourceStep (lut : Memory) (invertQ : Bool) (a : SourceState) (b : Bool) : SourceState × Option Item :=
  match a.lwz, effectiveBit b invertQ with
  | true, true => ({ lwz := false, A := a.A * 4 + 1 }, none)
  | false, true => ({ lwz := false, A := a.A * 2 + 1 }, none)
  | false, false => ({ a with lwz := true }, none)
  | true, false => ({ lwz := true, A := 0 }, sourceBoundary lut a.A)

/-- One unit in a source whose `accumulated` wraps at `w` bits (spec/40_accumulation.md R87). -/
def wrappingStep (w : Nat) (lut : Memory) (invertQ : Bool) (a : SourceState) (b : Bool) : SourceState × Option Item :=
  ({ (sourceStep lut invertQ a b).1 with A := (sourceStep lut invertQ a b).1.A % 2 ^ w }, (sourceStep lut invertQ a b).2)

/-- The register pair `(acc, ovf)` represents `A`, and `lwz` is equal in both (spec/10_state.md R27, spec/40_accumulation.md
R87). -/
def Represents (d : DecodeState) (a : SourceState) : Prop :=
  d.lwz = a.lwz ∧ d.acc.toNat = a.A % Config.domain ∧ (d.ovf = true ↔ Config.domain ≤ a.A)

end Sys2Proof.Machine
end

