-- ==== Sys2Proof/Safety.lean ====
section
/-! DEFINITION. What counts as a good state and a safe run, in the terms the statements use. -/

namespace Sys2Proof.Machine

/-- The 12 bits of `acc` as a string, bit 11 first. -/
def accString (acc : AccWord) : List Bool := (List.range 12).map (fun i => acc.getLsbD (11 - i))

/-- The reachable-state invariant of the decode state, items 1 to 3 of spec/10_state.md R28. -/
def DecodeState.Shaped (d : DecodeState) : Prop :=
  (d.lwz = false → d.acc ≠ 0#12 ∨ d.ovf = true) ∧
  ((d.acc = 0#12 ∧ d.ovf = false) ∨ d.acc[0] = true) ∧
  (d.ovf = false → d.acc ≠ 0#12 →
    (bin d.acc.toNat).head? = some true ∧ (bin d.acc.toNat).getLast? = some true ∧ hasDoubleZero (bin d.acc.toNat) = false) ∧
  (d.ovf = true → hasDoubleZero (accString d.acc) = false ∧ (accString d.acc).getLast? = some true)

/-- An item that `decode_step` can make: the sentinel with cause UNK or OVF, or a byte with bit 7 clear and cause SYM
(spec/30_encoding.md R64, R65). -/
def Item.Legal (it : Item) : Prop :=
  (it.byte[7] = false ∧ it.cause = Config.causeSym) ∨
  (it.byte = Config.sentinel ∧ (it.cause = Config.causeUnk ∨ it.cause = Config.causeOvf))

/-- While an item waits, nothing is accumulated: the buffer is empty whenever a new item is made
(spec/43_stream_interface.md R145). -/
def State.BufferApart (s : State) : Prop := s.obufValid = true → s.dec = DecodeState.start

/-- The two levels agree (spec/43_stream_interface.md R147, R148): the units taken since the reset edge, run through
`decode_step` from the reset decode state, give the decode state, and give the items taken since then followed by the item
that still waits. -/
def State.LevelsAgree (s : State) : Prop :=
  decodeUnits s.lut s.invertQ DecodeState.start s.host.unitsTaken = (s.dec, s.host.itemsTaken ++ s.waiting)

/-- Every word of the ROM is well formed (spec/30_encoding.md R66, R67): with `valid = 0` the symbol field is 0. -/
def LutWordsWf (m : Memory) : Prop := ∀ c ∈ m, lutEntryWf c.2 = true

/-- The run of a finite bit program has ended (spec/43_stream_interface.md R153): every unit of the program has been taken
and the consumer has taken every item. -/
def State.RunEnded (program : List Bool) (s : State) : Prop :=
  s.host.unitsTaken = program ∧ s.obufValid = false

/-- A run that never stops: after any number of steps there is a next state (spec/60_exceptions.md R173). -/
def RunsForever (s : State) : Prop := ∀ k, ∃ t, Host.Core.run Sys2Proof.core k s = .next t

end Sys2Proof.Machine
end

