-- ==== Sys2Proof/Certificates/Slice0/Obligations.lean ====
section
/-! DEFINITION. The statements for the provers. Each docstring names the rule of spec/ it formalises; where a statement rests
on a choice of the model it says so and names the log entry. -/

open Sys2Proof Sys2Proof.Machine

/-! ### Encoding -/

/-- The words written out from spec/30_encoding.md R62 (SEL2 = bits 1..0) decode to the instructions they stand for. That a
wider number is refused is the model's choice (log 8). -/
def Obligations.WrittenWordsDecode : Prop :=
  decodeTableWord 8 0b00000011 = some .t01 ∧
  decodeTableWord 8 0b00000001 = some .t11 ∧
  decodeTableWord 8 0b00000000 = some .t10 ∧
  decodeTableWord 8 0b00000010 = some .t00 ∧
  decode (.ctrl true) = .reset true ∧
  decode (.ctrl false) = .reset false ∧
  decodeTableWord 8 0b00000100 = none

/-- Decode and encode agree on every instruction at every state and unit that selects it (R62, R100): the code alone gives
back the whole rows, the code with the state gives back every row but T00 itself, and the code's selector is the state's. A
sequence of whole rows that have a word decodes from its bytes, and numbers above SEL2's range are refused wherever they
stand (log 8). -/
def Obligations.DecodeEncodeAgree : Prop :=
  (∀ (i : Instr) (lwz e : Bool) (acc : AccWord) (ovf : Bool) (entry : Byte),
    i.selectedBy lwz e acc ovf entry = true →
    (i.isWhole = true → decode (encode i) = i) ∧
    (i ≠ .t00 → decodeRow (encode i) acc ovf entry = i) ∧
    (∀ v, encode i = .sel v → v = selector lwz e ∧
      ∀ rest, decodeBytes (encodeBytes i ++ rest) = .ok (if i.isWhole then i else .t00, rest))) ∧
  (∀ is : List Instr, (∀ i ∈ is, i.isWhole = true ∧ encodeBytes i ≠ []) → decodeAll (is.flatMap encodeBytes) = .ok is) ∧
  ∀ (bs : List Byte) (is : List Instr), decodeAll bs = .ok is →
    is.flatMap encodeBytes = bs ∧ (∀ b ∈ bs, b.toNat < 4) ∧ ∀ i ∈ is, i.isWhole = true

/-- R62: the selector's bits, the transition each of its values selects, and T00's split: at every state and unit exactly
the row whose condition holds is decoded. -/
def Obligations.SelectorSelectsOneRow : Prop :=
  (∀ lwz e, (selector lwz e)[1] = lwz ∧ (selector lwz e)[0] = e) ∧
  decode (.sel (selector true true)) = .t01 ∧ decode (.sel (selector false true)) = .t11 ∧
  decode (.sel (selector false false)) = .t10 ∧ decode (.sel (selector true false)) = .t00 ∧
  ∀ (i : Instr) (lwz e : Bool) (acc : AccWord) (ovf : Bool) (entry : Byte),
    i ≠ .t00 → (∀ c, i ≠ .reset c) →
    (decodeRow (.sel (selector lwz e)) acc ovf entry = i ↔ i.selectedBy lwz e acc ovf entry = true)

/-- R61, R81: the transitions read the effective bit, never the unit itself. -/
def Obligations.TransitionsReadEffectiveBit : Prop :=
  (∀ b inv, effectiveBit b inv = (b ^^ inv)) ∧
  ∀ (lut : Memory) (inv : Bool) (d : DecodeState) (b : Bool),
    decodeStep lut inv d b = decodeStep lut false d (b ^^ inv) ∧
    decodeStep lut true d b = decodeStep lut false d (!b)

/-! ### The instructions -/

/-- R82: T01, in the register form and in the source form. It says where T01 completes (every state), its result, and its
frame: nothing but the decode state changes. -/
def Obligations.OneAfterZeroResult : Prop :=
  ∀ s : State,
    exec .t01 s = .next { s with dec :=
      { lwz := false, acc := s.dec.acc.extractLsb' 0 10 ++ 0b01#2, ovf := s.dec.ovf || s.dec.acc[11] || s.dec.acc[10] } } ∧
    ∀ t A, exec .t01 s = .next t → Represents s.dec { lwz := s.dec.lwz, A := A } →
      Represents t.dec { lwz := false, A := A * 4 + 1 }

/-- R83: T11, in the register form and in the source form, with its frame. -/
def Obligations.OneAfterOneResult : Prop :=
  ∀ s : State,
    exec .t11 s = .next { s with dec :=
      { lwz := false, acc := s.dec.acc.extractLsb' 0 11 ++ 1#1, ovf := s.dec.ovf || s.dec.acc[11] } } ∧
    ∀ t A, exec .t11 s = .next t → Represents s.dec { lwz := s.dec.lwz, A := A } →
      Represents t.dec { lwz := false, A := A * 2 + 1 }

/-- R84: T10 writes `lwz` and nothing else. -/
def Obligations.ZeroAfterOneResult : Prop :=
  ∀ s : State, exec .t10 s = .next { s with dec := { lwz := true, acc := s.dec.acc, ovf := s.dec.ovf } }

/-- R85, R100: T00's output in the fixed order of the sub-cases, then the cleared decode state; nothing else changes. -/
def Obligations.BoundaryResult : Prop :=
  ∀ s : State,
    exec .t00 s = .next (
      if s.dec.ovf = false ∧ s.dec.acc = 0#12 then { s with dec := { lwz := true, acc := 0#12, ovf := false } }
      else if s.dec.ovf = true then
        { s with dec := { lwz := true, acc := 0#12, ovf := false }, obufValid := true, obufByte := 0x3F#8, obufCause := 0b10#2 }
      else if (s.lut.read s.dec.acc.toNat)[7] = false then
        { s with dec := { lwz := true, acc := 0#12, ovf := false }, obufValid := true, obufByte := 0x3F#8, obufCause := 0b01#2 }
      else
        { s with
          dec := { lwz := true, acc := 0#12, ovf := false }, obufValid := true,
          obufByte := 0#1 ++ (s.lut.read s.dec.acc.toNat).extractLsb' 0 7, obufCause := 0b00#2 })

/-- R100: T00 does what the sub-case does whose condition holds first. -/
def Obligations.BoundaryRunsItsSubCase : Prop :=
  ∀ s : State, exec .t00 s = exec (subCase s.dec.acc s.dec.ovf (s.lut.read s.dec.acc.toNat)) s

/-- R101: BOUNDARY_IDLE makes no output; a run of zeros from the reset state or after a boundary makes none. -/
def Obligations.IdleBoundaryMakesNothing : Prop :=
  (∀ s : State, exec .boundaryIdle s = .next { s with dec := { lwz := true, acc := 0#12, ovf := false } }) ∧
  (∀ s : State, s.dec = { lwz := true, acc := 0#12, ovf := false } → exec .t00 s = .next s) ∧
  ∀ (lut : Memory) (n : Nat), decodeUnits lut false DecodeState.start (idleUnits n) = (DecodeState.start, [])

/-- R102: EMIT_OVERFLOW gives one sentinel with cause OVF whatever `acc` holds; an overflowed run of any length gives
exactly one. That no pattern of fewer than 13 units overflows is an inference the spec marks as its own ("The shortest
overflowing pattern is 13 effective ones"). -/
def Obligations.OverflowMakesOneSentinel : Prop :=
  (∀ s : State, exec .emitOverflow s = .next
    { s with dec := { lwz := true, acc := 0#12, ovf := false }, obufValid := true, obufByte := 0x3F#8, obufCause := 0b10#2 }) ∧
  (∀ s : State, s.dec.ovf = true → exec .t00 s = exec .emitOverflow s) ∧
  (∀ (lut : Memory) (k : Nat), 13 ≤ k →
    decodeUnits lut false DecodeState.start (onesUnits k ++ flushUnits) =
      (DecodeState.start, [{ byte := 0x3F#8, cause := 0b10#2 }])) ∧
  ∀ (lut : Memory) (u : List Bool), u.length ≤ 12 → (decodeUnits lut false DecodeState.start u).1.ovf = false

/-- The result and frame of EMIT_UNKNOWN (R103), and that a nonempty pattern in the domain that is the code of no symbol of
an accepted table gives it. -/
def Obligations.UnknownMakesSentinel : Prop :=
  (∀ s : State, exec .emitUnknown s = .next
    { s with dec := { lwz := true, acc := 0#12, ovf := false }, obufValid := true, obufByte := 0x3F#8, obufCause := 0b01#2 }) ∧
  ∀ (t : CodeTable) (s : State), t.Accepted → s.lut = buildLut t → s.dec.ovf = false → s.dec.acc ≠ 0#12 →
    (∀ c < 128, codeOf t c ≠ s.dec.acc.toNat) → exec .t00 s = exec .emitUnknown s

/-- R104: EMIT_SYMBOL gives the byte equal to the symbol index with cause SYM; for the ROM of an accepted table every symbol
whose code has accumulated comes out as itself, symbol 63 and symbol 0 among them. -/
def Obligations.SymbolMakesItsIndex : Prop :=
  (∀ s : State, exec .emitSymbol s = .next
    { s with
      dec := { lwz := true, acc := 0#12, ovf := false }, obufValid := true,
      obufByte := 0#1 ++ (s.lut.read s.dec.acc.toNat).extractLsb' 0 7, obufCause := 0b00#2 }) ∧
  (∀ s : State, s.dec.ovf = false → s.dec.acc ≠ 0#12 → (s.lut.read s.dec.acc.toNat)[7] = true →
    exec .t00 s = exec .emitSymbol s) ∧
  ∀ (t : CodeTable) (s : State) (c : Nat), t.Accepted → s.lut = buildLut t → c < 128 → s.dec.ovf = false →
    s.dec.acc.toNat = codeOf t c →
    exec .t00 s = .next
      { s with
        dec := { lwz := true, acc := 0#12, ovf := false }, obufValid := true,
        obufByte := BitVec.ofNat 8 c, obufCause := 0b00#2 }

/-- R105: every T00 and every sub-case ends in `(1, 0, 0)`. -/
def Obligations.EveryBoundaryEndsAtStart : Prop :=
  ∀ (s : State) (i : Instr), i ∈ [Instr.t00, .boundaryIdle, .emitOverflow, .emitUnknown, .emitSymbol] →
    ∃ t, exec i s = .next t ∧ t.dec = { lwz := true, acc := 0#12, ovf := false }

/-- What RESET writes (R190): every element but the ROM. That the host's two records start anew is the model's choice (log
3). -/
def Obligations.ResetInstructionResult : Prop :=
  ∀ (s : State) (c : Bool), exec (.reset c) s = .next
    { dec := { lwz := true, acc := 0#12, ovf := false }, invertQ := c, obufValid := false, obufByte := 0x00#8,
      obufCause := 0b00#2, lut := s.lut,
      host := { edges := s.host.edges, unitsTaken := [], itemsTaken := [] } }

/-- R190: edges with `rst = 1`, one or more of them, from any state: the reset state with the `cfg_invert` of the last of
them, the ROM unchanged, and no transfer at any of them. -/
def Obligations.ResetEdgesConstruct : Prop :=
  (∀ (p : Pins) (s : State), p.rst = true → inReady p s = false ∧ outValid p s = false ∧
    inFire p s = false ∧ outFire p s = false) ∧
  ∀ (s : State) (ps : List Pins) (p : Pins) (rest : List Pins),
    p.rst = true → (∀ q ∈ ps, q.rst = true) →
    ∃ t, Host.Core.run Sys2Proof.core (ps.length + 1) (s.withEdges (ps ++ p :: rest)) = .next t ∧
      t.dec = { lwz := true, acc := 0#12, ovf := false } ∧ t.invertQ = p.cfgInvert ∧ t.obufValid = false ∧
      t.obufByte = 0x00#8 ∧ t.obufCause = 0b00#2 ∧ t.lut = s.lut ∧ t.host.edges = rest

/-- The frame of the instructions: the ROM reads as before at every address, for all of them; the configuration, for all
but RESET; the output buffer, for those that emit nothing; the accumulator, for T10 (R21 to R25, R42, R82 to R84, R101).
The clauses on the coming edges (log 1) and on the host's records (log 3) are about the model's own fields. -/
def Obligations.InstructionFrame : Prop :=
  ∀ (i : Instr) (s t : State), exec i s = .next t →
    (∀ a, t.lut.read a = s.lut.read a) ∧ t.host.edges = s.host.edges ∧
    ((∀ c, i ≠ .reset c) → t.invertQ = s.invertQ ∧ t.host = s.host) ∧
    (i ∈ [Instr.t01, .t11, .t10, .boundaryIdle] →
      t.obufValid = s.obufValid ∧ t.obufByte = s.obufByte ∧ t.obufCause = s.obufCause) ∧
    (i = .t10 → t.dec.acc = s.dec.acc ∧ t.dec.ovf = s.dec.ovf)

/-! ### The machine -/

/-- A step runs the instruction that its edge selects, after the transfers of the edge; an edge that selects none makes the
transfers alone. That a step with no edge left changes nothing is the model's choice (log 1). -/
def Obligations.StepRunsDecodedInstruction : Prop :=
  (∀ s : State, s.host.edges = [] → step s = .next s) ∧
  ∀ (s : State) (p : Pins) (rest : List Pins), s.host.edges = p :: rest →
    (∀ i, p.rst = true ∨ inFire p s = true → decode (fetchCode p s) = i →
      step s = exec i (transfers p (s.withEdges rest))) ∧
    (p.rst = false → inFire p s = false → step s = .next (transfers p (s.withEdges rest)))

/-- A table word placed for the next step is decoded and run by it, as the unit of an edge whose consumer is ready. Where
the word is placed is the model's choice (log 1). -/
def Obligations.TableWordRunsNext : Prop :=
  ∀ (s : State) (w : Nat), w < 4 → ∃ i, decodeTableWord 8 w = some i ∧
    step (s.withFetchWord 8 w) =
      exec i (transfers (offerPins (w.testBit 0 ^^ s.invertQ)) { s with dec := { s.dec with lwz := w.testBit 1 } })

/-- R145: the cycle step, register by register, over the decode step; what leaves at an edge is the item that waited before
it, never the one made at it. Two clauses are inferences the spec marks as its own: a new item replaces a buffered one only
where the buffered one leaves, and where nothing is accumulated while an item waits, no item is made while one waits ("So
the buffer is empty whenever a new item is placed"). -/
def Obligations.CycleStepFollowsDecodeStep : Prop :=
  ∀ (s : State) (p : Pins) (rest : List Pins), s.host.edges = p :: rest →
    ∃ t, step s = .next t ∧ t.lut = s.lut ∧ t.host.edges = rest ∧
    (p.rst = true → t.dec = { lwz := true, acc := 0#12, ovf := false } ∧ t.invertQ = p.cfgInvert ∧
      t.obufValid = false ∧ t.obufByte = 0x00#8 ∧ t.obufCause = 0b00#2) ∧
    (p.rst = false →
      t.invertQ = s.invertQ ∧
      (inFire p s = true → t.dec = (decodeStep s.lut s.invertQ s.dec p.inBit).1 ∧
        (∀ it, (decodeStep s.lut s.invertQ s.dec p.inBit).2 = some it →
          t.obufValid = true ∧ t.obufByte = it.byte ∧ t.obufCause = it.cause) ∧
        ((decodeStep s.lut s.invertQ s.dec p.inBit).2 = none →
          t.obufValid = (s.obufValid && !outFire p s) ∧ t.obufByte = s.obufByte ∧ t.obufCause = s.obufCause)) ∧
      (inFire p s = false → t.dec = s.dec ∧
        t.obufValid = (s.obufValid && !outFire p s) ∧ t.obufByte = s.obufByte ∧ t.obufCause = s.obufCause) ∧
      t.host.itemsTaken = s.host.itemsTaken ++
        (if outFire p s then [{ byte := s.obufByte, cause := s.obufCause }] else []) ∧
      (inFire p s = true → s.obufValid = true → outFire p s = true) ∧
      (s.BufferApart → inFire p s = true → s.obufValid = true →
        (decodeStep s.lut s.invertQ s.dec p.inBit).2 = none))

/-- R141, R142: the output pins as functions of the registers and the input pins; `in_ready` does not look at `in_bit` or
`in_valid`, `out_valid` does not look at `out_ready`. That `out_byte` and `out_cause` show the buffer's registers also
while `out_valid = 0`, when their values carry no meaning, is the model's reading of the circuit (log 16). -/
def Obligations.OutputPinValues : Prop :=
  ∀ (p : Pins) (s : State),
    inReady p s = (!p.rst && (!s.obufValid || p.outReady)) ∧
    outValid p s = (s.obufValid && !p.rst) ∧ outByte s = s.obufByte ∧ outCause s = s.obufCause ∧
    (∀ b v, inReady { p with inBit := b, inValid := v } s = inReady p s) ∧
    (∀ r, outValid { p with outReady := r } s = outValid p s)

/-- R143, R144: when the transfers happen, and that each moves exactly one unit or one item, the one on the pins; with no
transfer nothing moves. -/
def Obligations.TransfersMoveOneEach : Prop :=
  (∀ (p : Pins) (s : State),
    (inFire p s = true ↔ p.rst = false ∧ p.inValid = true ∧ inReady p s = true) ∧
    (outFire p s = true ↔ p.rst = false ∧ outValid p s = true ∧ p.outReady = true)) ∧
  ∀ (s t : State) (p : Pins) (rest : List Pins), s.host.edges = p :: rest → p.rst = false → step s = .next t →
    t.host.unitsTaken = s.host.unitsTaken ++ (if inFire p s then [p.inBit] else []) ∧
    t.host.itemsTaken = s.host.itemsTaken ++
      (if outFire p s then [{ byte := outByte s, cause := outCause s }] else []) ∧
    (inFire p s = false →
      ∀ b, step (s.withEdges ({ p with inBit := b } :: rest)) = step s)

/-- R146, an inference the spec marks as its own ("Output stability"): while an item is offered and not taken, edge after
edge, no unit is taken and everything keeps its value. -/
def Obligations.OfferedItemHeld : Prop :=
  ∀ (s : State) (ps rest : List Pins), s.obufValid = true →
    (∀ p ∈ ps, p.rst = false ∧ p.outReady = false) →
    (∀ p ∈ ps, inReady p s = false ∧ outValid p s = true) ∧
    Host.Core.run Sys2Proof.core ps.length (s.withEdges (ps ++ rest)) = .next (s.withEdges rest)

/-- R172: an edge without an input transfer takes no unit and leaves the decode state; if an item leaves at it, the buffer
empties. -/
def Obligations.WaitingKeepsDecodeState : Prop :=
  ∀ (s : State) (p : Pins) (rest : List Pins), s.host.edges = p :: rest → p.rst = false →
    (p.inValid = false ∨ inReady p s = false) →
    ∃ t, step s = .next t ∧ t.dec = s.dec ∧ t.host.unitsTaken = s.host.unitsTaken ∧
      (outFire p s = true → t.obufValid = false) ∧ (outFire p s = false → t = s.withEdges rest)

/-- R173, an inference the spec marks as its own ("The block is total."): every state has a next state at every edge, for
every value of every input; a unit is accepted as soon as the buffer can hold an item; the only refusals are a unit other
than 0 or 1 in the wide input and a bad code table. -/
def Obligations.NothingEverStops : Prop :=
  (∀ s : State, ∃ t, step s = .next t) ∧ (∀ s : State, RunsForever s) ∧
  (∀ (i : Instr) (s : State), ∃ t, exec i s = .next t) ∧
  (∀ (s : State) (p : Pins), p.rst = false → p.inValid = true → s.obufValid = false ∨ p.outReady = true →
    inFire p s = true) ∧
  (∀ (lut : Memory) (inv : Bool) (d : DecodeState) (v : Nat) (r : Refusal),
    decodeWideUnit lut inv d v = .error r → r = .unitNotBinary v ∧ v ≠ 0 ∧ v ≠ 1) ∧
  (∀ (t : CodeTable) (c : Bool) (r : Refusal), construct t c = .refused r → ∃ d, r = .codeTable d ∧ ¬ t.Accepted) ∧
  (∀ (t : CodeTable) (ps : List Pins) (r : Refusal), State.powerUp t ps = .refused r → ∃ d, r = .codeTable d ∧ ¬ t.Accepted)

/-- The decode step of a model input wider than one bit refuses any unit but 0 and 1 and maps none of them to a bit (the
clause of R67 about IN1). -/
def Obligations.WideUnitsRefused : Prop :=
  ∀ (lut : Memory) (inv : Bool) (d : DecodeState),
    decodeWideUnit lut inv d 0 = .ok (decodeStep lut inv d false) ∧
    decodeWideUnit lut inv d 1 = .ok (decodeStep lut inv d true) ∧
    ∀ v, 2 ≤ v → decodeWideUnit lut inv d v = .error (.unitNotBinary v)

/-! ### The code table and the ROM -/

/-- R120: an instance is made, at construction or at power-up, exactly for the tables of 128 entries that meet the four
conditions, and any other table is refused. That a list of another length is refused too is read from "128 unsigned
integers" (log 13). -/
def Obligations.TablesAcceptedExactly : Prop :=
  ∀ (t : CodeTable) (c : Bool),
    (t.Accepted ↔
      t.length = 128 ∧
      (∀ s < 128, 1 ≤ codeOf t s ∧ codeOf t s ≤ 4095) ∧
      (∀ s < 128, hasDoubleZero (pattern t s) = false) ∧
      (∀ s < 128, (pattern t s).getLast? = some true) ∧
      (∀ s < 128, ∀ r < 128, codeOf t s = codeOf t r → s = r)) ∧
    (t.Accepted → construct t c = .next { State.reset with lut := buildLut t, invertQ := c }) ∧
    (¬ t.Accepted → ∃ d, construct t c = .refused (.codeTable d)) ∧
    ∀ ps : List Pins,
      (t.Accepted → State.powerUp t ps = .next { State.unreset ps with lut := buildLut t }) ∧
      (¬ t.Accepted → ∃ d, State.powerUp t ps = .refused (.codeTable d))

/-- The default table (R121; its values are the spec's general knowledge, log 5): accepted, smallest 1 (SP), largest 955,
pattern lengths 1 to 10, and the two values the source gives. -/
def Obligations.DefaultTableProperties : Prop :=
  CodeTable.Accepted defaultCodeTable ∧
  (∀ s < 128, 1 ≤ codeOf defaultCodeTable s ∧ codeOf defaultCodeTable s ≤ 955 ∧
    1 ≤ (pattern defaultCodeTable s).length ∧ (pattern defaultCodeTable s).length ≤ 10) ∧
  codeOf defaultCodeTable 32 = 1 ∧ codeOf defaultCodeTable 29 = 955 ∧
  codeOf defaultCodeTable 0 = 683 ∧ codeOf defaultCodeTable 1 = 731

/-- R122: the ROM of an accepted table, index by index. -/
def Obligations.RomInvertsCodeTable : Prop :=
  ∀ t : CodeTable, t.Accepted →
    (∀ i < 4096, ∀ s < 128, codeOf t s = i → (buildLut t).read i = 1#1 ++ BitVec.ofNat 7 s) ∧
    (∀ i < 4096, (∀ s < 128, codeOf t s ≠ i) → (buildLut t).read i = 0x00#8) ∧
    (buildLut t).read 0 = 0x00#8

/-- R123: the ROM is a constant of the instance: no run of steps, resets included, changes it, and it is there from
power-up, for every accepted table. -/
def Obligations.RomIsConstant : Prop :=
  (∀ (k : Nat) (s t : State), Host.Core.run Sys2Proof.core k s = .next t → t.lut = s.lut) ∧
  ∀ (c : CodeTable) (ps : List Pins), c.Accepted → ∃ s, State.powerUp c ps = .next s ∧ s.lut = buildLut c

/-- The ROM's canonical form (log 10; its addresses rise and lie in 0..4095, R40, R47): construction and power-up make it
and every step keeps it. -/
def Obligations.RomFormKept : Prop :=
  (∀ (c : CodeTable) (inv : Bool) (t : State), construct c inv = .next t → t.lut.wf ∧ LutWordsWf t.lut) ∧
  (∀ (c : CodeTable) (ps : List Pins) (t : State), State.powerUp c ps = .next t → t.lut.wf ∧ LutWordsWf t.lut) ∧
  ∀ s t : State, s.lut.wf → LutWordsWf s.lut → step s = .next t → t.lut.wf ∧ LutWordsWf t.lut

/-- R41: the ROM is read only in T00, only when `ovf = 0` and `acc ≠ 0`, and only at index `acc`: two ROMs that agree there
give the same step. -/
def Obligations.RomReadOnlyAtBoundary : Prop :=
  ∀ (lut lut' : Memory) (inv : Bool) (d : DecodeState) (b : Bool),
    (d.lwz = true → (b ^^ inv) = false → d.ovf = false → d.acc ≠ 0#12 → lut.read d.acc.toNat = lut'.read d.acc.toNat) →
    decodeStep lut inv d b = decodeStep lut' inv d b

/-! ### The register form and the source's form -/

/-- R27: the register pair answers the three questions the emission policy asks of `A`. That the outputs are equal is an
inference the spec marks as its own ("the same output stream"). -/
def Obligations.RegisterPairAnswersForSource : Prop :=
  ∀ (lut : Memory) (d : DecodeState) (a : SourceState), Represents d a →
    (d.ovf = false → a.A = d.acc.toNat ∧ a.A < 4096) ∧
    (d.ovf = true → 4096 ≤ a.A ∧ d.acc.toNat = a.A % 4096) ∧
    (a.A = 0 ↔ d.ovf = false ∧ d.acc = 0#12) ∧ (4096 ≤ a.A ↔ d.ovf = true) ∧
    boundary lut d = sourceBoundary lut a.A

/-- R87, an inference the spec marks as its own ("So the outputs are equal."): on every unit stream from reset the register
form represents the unbounded form and makes the same items, and a source whose accumulator wraps at any width of at least
14 bits reports `A ≥ 4096` exactly when the unbounded one does and makes the same items. -/
def Obligations.AllAccumulatorFormsAgree : Prop :=
  ∀ (lut : Memory) (inv : Bool) (u : List Bool),
    Represents (decodeUnits lut inv DecodeState.start u).1 (runUnits (sourceStep lut inv) SourceState.start u).1 ∧
    (decodeUnits lut inv DecodeState.start u).2 = (runUnits (sourceStep lut inv) SourceState.start u).2 ∧
    ∀ w, 14 ≤ w →
      (4096 ≤ (runUnits (wrappingStep w lut inv) SourceState.start u).1.A ↔
        4096 ≤ (runUnits (sourceStep lut inv) SourceState.start u).1.A) ∧
      (runUnits (wrappingStep w lut inv) SourceState.start u).2 = (runUnits (sourceStep lut inv) SourceState.start u).2

/-- R124: the lookup function, its bound check answered by `ovf`, and the causes its two unknown cases get. -/
def Obligations.LookupWithBoundCheck : Prop :=
  ∀ (lut : Memory) (d : DecodeState) (a : SourceState), Represents d a → a.A ≠ 0 →
    (d.ovf = true → lookup lut a.A = .unknown ∧ boundary lut d = some { byte := 0x3F#8, cause := 0b10#2 }) ∧
    (d.ovf = false → (lut.read d.acc.toNat)[7] = false →
      lookup lut a.A = .unknown ∧ boundary lut d = some { byte := 0x3F#8, cause := 0b01#2 }) ∧
    (d.ovf = false → (lut.read d.acc.toNat)[7] = true →
      lookup lut a.A = .symbol ((lut.read d.acc.toNat).extractLsb' 0 7) ∧
      boundary lut d = some { byte := 0#1 ++ (lut.read d.acc.toNat).extractLsb' 0 7, cause := 0b00#2 })

/-- R86: the accumulator goes to zero at a boundary, and between boundaries it never decreases; in the registers, `ovf`
stays set until a boundary. -/
def Obligations.AccumulatorOnlyGrows : Prop :=
  ∀ (lut : Memory) (inv : Bool) (a : SourceState) (d : DecodeState) (b : Bool),
    (a.lwz = true → (b ^^ inv) = false → (sourceStep lut inv a b).1.A = 0) ∧
    (a.lwz = false ∨ (b ^^ inv) = true → a.A ≤ (sourceStep lut inv a b).1.A) ∧
    (d.lwz = true → (b ^^ inv) = false →
      (decodeStep lut inv d b).1.acc = 0#12 ∧ (decodeStep lut inv d b).1.ovf = false) ∧
    (d.lwz = false ∨ (b ^^ inv) = true → d.ovf = true → (decodeStep lut inv d b).1.ovf = true)

/-! ### Invariants -/

/-- R28, an inference the spec marks as its own ("Reachable-state invariant."): the shape of the decode state holds after
reset and every step keeps it. -/
def Obligations.AccumulatorShapeKept : Prop :=
  DecodeState.start.Shaped ∧
  ∀ s t : State, s.dec.Shaped → step s = .next t → t.dec.Shaped

/-- The invariants of the statements below hold at reset. -/
def Obligations.InvariantsHoldAtReset : Prop :=
  State.reset.dec.Shaped ∧ State.reset.BufferApart ∧ State.reset.LevelsAgree ∧ State.reset.lut.wf ∧
  LutWordsWf State.reset.lut

/-- Every step keeps the agreement of the two levels (R147, R148, R6). The records it is about are the model's own (log 3). -/
def Obligations.LevelsAgreeKept : Prop :=
  ∀ s t : State, s.LevelsAgree → step s = .next t → t.LevelsAgree

/-- R148, an inference the spec marks as its own ("The prefix lacks at most the one item still in the buffer."): over a run
of any length, the items taken are a prefix of the items the decode step gives on the units taken, and lack at most the one
item still in the buffer. -/
def Obligations.ItemsTakenArePrefix : Prop :=
  ∀ (k : Nat) (s t : State), s.LevelsAgree → Host.Core.run Sys2Proof.core k s = .next t →
    t.host.itemsTaken <+: (decodeUnits t.lut t.invertQ DecodeState.start t.host.unitsTaken).2 ∧
    (decodeUnits t.lut t.invertQ DecodeState.start t.host.unitsTaken).2 = t.host.itemsTaken ++ t.waiting ∧
    t.waiting.length ≤ 1

/-- Every step keeps the buffer apart from the accumulator (the derivation in R145): while an item waits nothing is
accumulated. -/
def Obligations.BufferApartKept : Prop :=
  ∀ s t : State, s.BufferApart → step s = .next t → t.BufferApart

/-- Every item made is a sentinel with cause UNK or OVF or a byte with bit 7 clear and cause SYM, and every step keeps the
waiting item and the taken items so; cause 2'b11 is never driven (R64, R65, R67). -/
def Obligations.OnlyLegalItems : Prop :=
  (∀ (lut : Memory) (inv : Bool) (d : DecodeState) (b : Bool) (it : Item),
    (decodeStep lut inv d b).2 = some it → it.Legal ∧ it.cause ≠ 0b11#2) ∧
  ∀ s t : State, (∀ it ∈ s.host.itemsTaken ++ s.waiting, it.Legal) → step s = .next t →
    ∀ it ∈ t.host.itemsTaken ++ t.waiting, it.Legal

/-- R194: a change of `cfg_invert` while `rst = 0` has no effect; a reset takes it and discards the decode state. -/
def Obligations.InversionFixedBetweenResets : Prop :=
  ∀ (s : State) (p : Pins) (rest : List Pins),
    (p.rst = false → ∀ c, step (s.withEdges ({ p with cfgInvert := c } :: rest)) = step (s.withEdges (p :: rest))) ∧
    (p.rst = false → ∃ t, step (s.withEdges (p :: rest)) = .next t ∧ t.invertQ = s.invertQ) ∧
    (p.rst = true → ∃ t, step (s.withEdges (p :: rest)) = .next t ∧ t.invertQ = p.cfgInvert ∧
      t.dec = { lwz := true, acc := 0#12, ovf := false })

/-- The host's records act on nothing: with other records a step gives the same block and the same coming edges (R20: no
state exists beyond its table; the records are the model's own, log 3). -/
def Obligations.RecordsActOnNothing : Prop :=
  ∀ (s t : State) (u : List Bool) (is : List Item), step s = .next t →
    ∃ t', step { s with host := { s.host with unitsTaken := u, itemsTaken := is } } = .next t' ∧
      t'.dec = t.dec ∧ t'.invertQ = t.invertQ ∧ t'.obufValid = t.obufValid ∧ t'.obufByte = t.obufByte ∧
      t'.obufCause = t.obufCause ∧ t'.lut = t.lut ∧ t'.host.edges = t.host.edges

/-! ### Streams -/

/-- R70, an inference the spec marks as its own ("The result is `acc = CODE_TABLE[s]`"): the pattern of a code, fed from the
state after reset or a boundary, leaves exactly the code in the accumulator. -/
def Obligations.PatternAccumulatesToCode : Prop :=
  ∀ (lut : Memory) (v : Nat), 0 < v → v < 4096 → hasDoubleZero (bin v) = false → (bin v).getLast? = some true →
    decodeUnits lut false DecodeState.start (bin v) = ({ lwz := false, acc := BitVec.ofNat 12 v, ovf := false }, [])

/-- R125: the round trip of every symbol of every accepted table, plain and inverted. -/
def Obligations.SymbolRoundTrip : Prop :=
  ∀ (t : CodeTable) (s : Nat), t.Accepted → s < 128 →
    decodeUnits (buildLut t) false DecodeState.start (symUnits t s) =
      (DecodeState.start, [{ byte := BitVec.ofNat 8 s, cause := 0b00#2 }]) ∧
    decodeUnits (buildLut t) true DecodeState.start (invUnits (symUnits t s)) =
      (DecodeState.start, [{ byte := BitVec.ofNat 8 s, cause := 0b00#2 }])

/-- R126, an inference the spec marks as its own ("Decoding is unique."): a stream of symbols with any idle zeros between
them decodes to exactly those symbols in order, and no pattern is that of two symbols. -/
def Obligations.UniqueDecoding : Prop :=
  ∀ t : CodeTable, t.Accepted →
    (∀ cs : List (Nat × Nat), (∀ c ∈ cs, c.1 < 128) →
      decodeUnits (buildLut t) false DecodeState.start (symbolStream t cs) =
        (DecodeState.start, cs.map fun c => { byte := BitVec.ofNat 8 c.1, cause := 0b00#2 })) ∧
    ∀ s < 128, ∀ r < 128, pattern t s = pattern t r → s = r

/-- R198, an inference the spec marks as its own ("Every symbol after that decodes correctly."): whatever the state and the
units before it, after two effective zeros every following symbol decodes correctly; a first stretch that holds a one, up to
its first `00`, makes exactly one item; leading zeros make none. -/
def Obligations.StreamResynchronises : Prop :=
  (∀ (t : CodeTable) (d : DecodeState) (u : List Bool) (cs : List (Nat × Nat)), t.Accepted → (∀ c ∈ cs, c.1 < 128) →
    decodeUnits (buildLut t) false d (u ++ flushUnits ++ symbolStream t cs) =
      (DecodeState.start, (decodeUnits (buildLut t) false d (u ++ flushUnits)).2 ++
        cs.map fun c => { byte := BitVec.ofNat 8 c.1, cause := 0b00#2 })) ∧
  (∀ (lut : Memory) (u : List Bool), true ∈ u → hasDoubleZero (u ++ [false]) = false →
    (decodeUnits lut false DecodeState.start (u ++ flushUnits)).2.length = 1) ∧
  ∀ (lut : Memory) (n : Nat) (u : List Bool),
    decodeUnits lut false DecodeState.start (idleUnits n ++ u) = decodeUnits lut false DecodeState.start u

/-- R90: decoding the complement with inversion is decoding the stream without, state by state and item by item. -/
def Obligations.InversionSymmetry : Prop :=
  ∀ (lut : Memory) (d : DecodeState) (p : List Bool),
    decodeUnits lut true d (invUnits p) = decodeUnits lut false d p

/-- R89, an inference the spec marks as its own ("cannot be observed"): the reset value of `lwz` cannot be observed: the
first unit gives `(0, 1, 0)` or `(1, 0, 0)` without an item; from `(0, 0, 0)` the items are the same on every stream, and
after the first unit so is the state. -/
def Obligations.ResetLwzUnobservable : Prop :=
  ∀ (lut : Memory) (inv : Bool) (u : List Bool),
    (∀ b, decodeStep lut inv { lwz := true, acc := 0#12, ovf := false } b =
      (if b ^^ inv then { lwz := false, acc := 1#12, ovf := false } else { lwz := true, acc := 0#12, ovf := false }, none)) ∧
    (decodeUnits lut inv DecodeState.start u).2 = (decodeUnits lut inv { lwz := false, acc := 0#12, ovf := false } u).2 ∧
    (u ≠ [] → decodeUnits lut inv DecodeState.start u = decodeUnits lut inv { lwz := false, acc := 0#12, ovf := false } u)

/-- An item is made exactly by a T00 with something accumulated, at most one a unit, and a stream in two parts makes the
items of the first part and then those of the second (R108, R48, R91). -/
def Obligations.ItemsComeFromBoundariesInOrder : Prop :=
  ∀ (lut : Memory) (inv : Bool) (d : DecodeState),
    (∀ b, (decodeStep lut inv d b).2.isSome = true ↔
      d.lwz = true ∧ (b ^^ inv) = false ∧ (d.acc ≠ 0#12 ∨ d.ovf = true)) ∧
    (∀ u v, decodeUnits lut inv d (u ++ v) =
      ((decodeUnits lut inv (decodeUnits lut inv d u).1 v).1,
        (decodeUnits lut inv d u).2 ++ (decodeUnits lut inv (decodeUnits lut inv d u).1 v).2)) ∧
    ∀ u, (decodeUnits lut inv d u).2.length ≤ u.length

/-- R201, an inference the spec marks as its own ("Minimum units per item."): from a boundary or reset, at most one item is
made per three units; the shortest item is made by `100`. -/
def Obligations.ThreeUnitsPerItem : Prop :=
  (∀ (lut : Memory) (inv : Bool) (u : List Bool),
    3 * (decodeUnits lut inv DecodeState.start u).2.length ≤ u.length) ∧
  decodeUnits (buildLut defaultCodeTable) false DecodeState.start [true, false, false] =
    (DecodeState.start, [{ byte := 0x20#8, cause := 0b00#2 }])

/-- R88, R195, inferences the spec marks as its own ("Flush by terminator."): two effective zeros flush whatever is
accumulated, one is enough after a zero, and extra zeros are harmless; with inversion the flush is `11`. From every state
nothing comes out of units that complete no boundary, whether the state's last unit was a one or a zero: the zero that is
pending counts as the first of the stream. -/
def Obligations.FlushByTerminator : Prop :=
  ∀ (lut : Memory) (inv : Bool) (d : DecodeState),
    (d.acc ≠ 0#12 ∨ d.ovf = true →
      (∀ n, (decodeUnits lut inv d (inv :: inv :: List.replicate n inv)).1 = DecodeState.start ∧
        (decodeUnits lut inv d (inv :: inv :: List.replicate n inv)).2.length = 1) ∧
      (d.lwz = true → (decodeUnits lut inv d [inv]).2.length = 1)) ∧
    (∀ u, hasDoubleZero ((if d.lwz then [false] else []) ++ u.map (· ^^ inv)) = false → (decodeUnits lut inv d u).2 = [])

/-- R149: a call stops at the capacity, reports what it consumed and produced, and does to the state what the consumed units
do; with no capacity it consumes nothing, with a capacity of at least its units it consumes them all. -/
def Obligations.ChunkStopsAtCapacity : Prop :=
  ∀ (lut : Memory) (inv : Bool) (d : DecodeState) (u : List Bool) (cap : Nat),
    let r := decodeChunk lut inv d u cap
    (r.state, r.items) = decodeUnits lut inv d (u.take r.consumed) ∧
    r.produced = r.items.length ∧ r.items.length ≤ cap ∧ r.consumed ≤ u.length ∧
    (r.consumed = u.length ∨ r.items.length = cap) ∧
    (∀ j < r.consumed, (decodeUnits lut inv d (u.take j)).2.length < cap) ∧
    (cap = 0 → r.consumed = 0) ∧ (u.length ≤ cap → r.consumed = u.length)

/-- R151: calls with any chunks and any capacities, resumed until every unit is consumed, give the items and the state of
one call. -/
def Obligations.ChunkBoundariesTransparent : Prop :=
  ∀ (lut : Memory) (inv : Bool) (d : DecodeState) (u : List Bool) (calls : List (Nat × Nat)),
    (decodeCalls lut inv { state := d, items := [], rest := u } calls).rest = [] →
    (decodeCalls lut inv { state := d, items := [], rest := u } calls).items = (decodeChunk lut inv d u u.length).items ∧
    (decodeCalls lut inv { state := d, items := [], rest := u } calls).state = (decodeChunk lut inv d u u.length).state

/-- One unit per edge while the consumer is ready, an item offered right after the edge that made it, and no item taken
before the edge after that (R200). -/
def Obligations.OneUnitPerEdge : Prop :=
  (∀ (s : State) (u : List Bool) (rest : List Pins),
    ∃ t, Host.Core.run Sys2Proof.core u.length (s.withEdges (feed u ++ rest)) = .next t ∧
      t.host.edges = rest ∧ t.host.unitsTaken = s.host.unitsTaken ++ u ∧
      t.dec = (decodeUnits s.lut s.invertQ s.dec u).1 ∧
      t.host.itemsTaken ++ t.waiting = s.host.itemsTaken ++ s.waiting ++ (decodeUnits s.lut s.invertQ s.dec u).2) ∧
  ∀ (s t : State) (p : Pins) (rest : List Pins) (it : Item), s.host.edges = p :: rest → inFire p s = true →
    (decodeStep s.lut s.invertQ s.dec p.inBit).2 = some it → step s = .next t →
    t.waiting = [it] ∧ t.host.itemsTaken = s.host.itemsTaken ++ (if outFire p s then s.waiting else [])

/-- A run of any length that ends (R153) has given the host exactly the items of its program, and its decode state is the
program's; what it accumulated without a boundary stays in the state. The records it is about are the model's own (log
3). -/
def Obligations.EndedRunGaveEverything : Prop :=
  ∀ (k : Nat) (s t : State) (program : List Bool), s.LevelsAgree → Host.Core.run Sys2Proof.core k s = .next t →
    t.RunEnded program → (t.dec, t.host.itemsTaken) = decodeUnits t.lut t.invertQ DecodeState.start program

/-- Boot (R192, R193): power-up with an accepted table makes an instance whose registers are free (log 12), and from it
one reset edge gives the state of a constructed instance with the chosen inversion. -/
def Obligations.BootByOneResetEdge : Prop :=
  ∀ (t : CodeTable) (p : Pins) (rest : List Pins), t.Accepted → p.rst = true →
    ∃ s₀ s, State.powerUp t (p :: rest) = .next s₀ ∧ construct t p.cfgInvert = .next s ∧ step s₀ = .next (s.withEdges rest)
end

