-- ==== Sys2Proof/Laws/Bin.lean ====
section
/-! SUPPORT. Binary numerals: how `bin` grows by a bit, and double zeros in joined strings. -/

namespace Sys2Proof

/-- Enough fuel is enough: the digits do not depend on it. -/
theorem binLow_fuel (f g v : Nat) (hf : v ≤ f) (hg : v ≤ g) : binLow f v = binLow g v := by
  induction f generalizing g v with
  | zero => obtain rfl : v = 0 := by omega
            cases g <;> simp [binLow]
  | succ f ih =>
    cases g with
    | zero => obtain rfl : v = 0 := by omega
              simp [binLow]
    | succ g =>
      by_cases h : v = 0
      · simp [binLow, h]
      · simp only [binLow, h, if_false]
        rw [ih g (v / 2) (by omega) (by omega)]

@[simp] theorem bin_zero : bin 0 = [] := rfl

/-- The numeral of a positive number is that of its half, then its last bit. -/
theorem bin_pos {v : Nat} (h : v ≠ 0) : bin v = bin (v / 2) ++ [v % 2 == 1] := by
  obtain ⟨f, rfl⟩ : ∃ f, v = f + 1 := ⟨v - 1, by omega⟩
  unfold bin
  rw [binLow, if_neg h, List.reverse_cons, binLow_fuel f ((f + 1) / 2) _ (by omega) (by omega)]

/-- Appending a one. -/
theorem bin_two_mul_add_one (v : Nat) : bin (v * 2 + 1) = bin v ++ [true] := by
  rw [bin_pos (by omega), show (v * 2 + 1) / 2 = v by omega, show (v * 2 + 1) % 2 = 1 by omega]; rfl

/-- Appending a zero to a positive number. -/
theorem bin_two_mul {v : Nat} (h : v ≠ 0) : bin (v * 2) = bin v ++ [false] := by
  rw [bin_pos (by omega), show v * 2 / 2 = v by omega, show v * 2 % 2 = 0 by omega]; rfl

theorem hasDoubleZero_cons (b : Bool) (u : List Bool) :
    hasDoubleZero (b :: u) = ((!b && u.head? == some false) || hasDoubleZero u) := rfl

/-- A string has no double zero once a one is put after it, if it had none. -/
theorem hasDoubleZero_append_true (u : List Bool) : hasDoubleZero (u ++ [true]) = hasDoubleZero u := by
  induction u with
  | nil => rfl
  | cons b u ih =>
    rw [List.cons_append, hasDoubleZero_cons, hasDoubleZero_cons, ih]
    cases u <;> simp

/-- Two strings joined have a double zero in one of them, or where they meet. -/
theorem hasDoubleZero_append (u v : List Bool) :
    hasDoubleZero (u ++ v) = (hasDoubleZero u || hasDoubleZero v || (u.getLast? == some false && v.head? == some false)) := by
  induction u with
  | nil => simp [hasDoubleZero]
  | cons b u ih =>
    cases u with
    | nil =>
      simp only [List.singleton_append, hasDoubleZero_cons]
      cases b <;> cases h : hasDoubleZero v <;> simp [hasDoubleZero]
    | cons c u =>
      rw [List.cons_append, hasDoubleZero_cons, ih, hasDoubleZero_cons b]
      simp only [List.cons_append, List.head?_cons, List.getLast?_cons_cons, Bool.or_assoc]

end Sys2Proof
end

