-- ==== Sys2Proof/Laws/Memory.lean ====
section
/-! SUPPORT. The laws of the ROM's memory: read after write, and the canonical form. -/

namespace Sys2Proof.Machine

theorem read_nil (a : Nat) : Memory.read [] a = Memory.unlisted := rfl

theorem read_cons (c : Host.Cell) (m : Memory) (a : Nat) :
    Memory.read (c :: m) a = if c.1 = a then c.2 else Memory.read m a := rfl

/-- An address below every listed one reads as unlisted. -/
theorem read_of_below (m : Memory) (a : Nat) (h : ∀ c ∈ m, a < c.1) : m.read a = Memory.unlisted := by
  induction m with
  | nil => rfl
  | cons c m ih =>
    have hc : a < c.1 := h c (by simp)
    rw [read_cons, if_neg (by omega)]
    exact ih fun x hx => h x (by simp [hx])

/-- Every listed address is `a` after a write there, or was listed before. -/
theorem mem_write {m : Memory} {a : Nat} {v : Byte} {c : Host.Cell} (h : c ∈ m.write a v) :
    (c = (a, v) ∧ v ≠ Memory.unlisted) ∨ c ∈ m := by
  induction m with
  | nil =>
    simp only [Memory.write] at h
    split at h <;> simp_all
  | cons x m ih =>
    simp only [Memory.write] at h
    split_ifs at h <;> simp_all <;> tauto

/-- A write inside the address space keeps the canonical form. -/
theorem write_wf {m : Memory} {a : Nat} {v : Byte} (hm : m.wf) (ha : a < Config.domain) : (m.write a v).wf := by
  refine ⟨?_, ?_⟩
  · induction m with
    | nil => simp only [Memory.write]; split <;> simp
    | cons x m ih =>
      obtain ⟨hp, hv⟩ := hm
      have hp' := List.pairwise_cons.mp hp
      have htail : Memory.wf m := ⟨hp'.2, fun c hc => hv c (by simp [hc])⟩
      simp only [Memory.write]
      split_ifs with h1 h2 h3 h4
      · exact hp
      · refine List.pairwise_cons.mpr ⟨fun c hc => ?_, hp⟩
        rcases List.mem_cons.mp hc with rfl | hc
        · exact h1
        · exact Nat.lt_trans h1 (hp'.1 c hc)
      · exact hp'.2
      · refine List.pairwise_cons.mpr ⟨fun c hc => ?_, hp'.2⟩
        have := hp'.1 c hc
        simp only; omega
      · refine List.pairwise_cons.mpr ⟨fun c hc => ?_, ih htail⟩
        rcases mem_write hc with ⟨rfl, -⟩ | hc
        · simp only; omega
        · exact hp'.1 c hc
  · intro c hc
    rcases mem_write hc with ⟨rfl, h⟩ | hc
    · exact ⟨ha, h⟩
    · exact hm.2 c hc

/-- A read after a write to the same address gives the value written. -/
theorem read_write_same {m : Memory} (hm : m.wf) (a : Nat) (v : Byte) : (m.write a v).read a = v := by
  induction m with
  | nil => simp only [Memory.write]; split <;> simp_all [read_cons, read_nil]
  | cons x m ih =>
    have hp' := List.pairwise_cons.mp hm.1
    have htail : Memory.wf m := ⟨hp'.2, fun c hc => hm.2 c (by simp [hc])⟩
    simp only [Memory.write]
    split_ifs with h1 h2 h3 h4
    · rw [h2]
      exact read_of_below _ _ fun c hc => by
        rcases List.mem_cons.mp hc with rfl | hc
        · exact h1
        · exact Nat.lt_trans h1 (hp'.1 c hc)
    · simp [read_cons]
    · rw [h4]
      exact read_of_below _ _ fun c hc => by rw [h3]; exact hp'.1 c hc
    · simp [read_cons]
    · rw [read_cons, if_neg (fun h => h3 h.symm)]; exact ih htail

/-- A write leaves every other address alone. -/
theorem read_write_other (m : Memory) {a b : Nat} (v : Byte) (h : b ≠ a) : (m.write a v).read b = m.read b := by
  induction m with
  | nil => simp only [Memory.write]; split <;> simp [read_cons, read_nil, h.symm]
  | cons x m ih =>
    simp only [Memory.write]
    split_ifs with h1 h2 h3 h4
    · rfl
    · simp [read_cons, h.symm]
    · rw [read_cons, if_neg (fun hx => h (by omega))]
    · rw [read_cons, read_cons, if_neg (fun hx => h hx.symm), if_neg (fun hx => h (by omega))]
    · rw [read_cons, read_cons, ih]

theorem lutWord_toNat (s : Nat) : (lutWord s).toNat = 128 + s % 128 := by
  simp only [lutWord, BitVec.toNat_append, BitVec.toNat_ofNat]
  rw [← Nat.shiftLeft_add_eq_or_of_lt (by omega)]
  simp only [Nat.shiftLeft_eq]

theorem lutWord_ne_unlisted (s : Nat) : lutWord s ≠ Memory.unlisted := by
  intro h
  have := congrArg BitVec.toNat h
  rw [lutWord_toNat] at this
  simp [Memory.unlisted] at this

/-- Entering codes of the domain keeps the canonical form. -/
theorem enterCodes_wf (t : CodeTable) (s : Nat) (m : Memory) (hm : m.wf) (ht : ∀ c ∈ t, c < Config.domain) :
    (enterCodes t s m).wf := by
  induction t generalizing s m with
  | nil => exact hm
  | cons c t ih =>
    exact ih (s + 1) _ (write_wf hm (ht c (by simp))) fun x hx => ht x (by simp [hx])

/-- The ROM of a table of codes of the domain is in canonical form. -/
theorem buildLut_wf (t : CodeTable) (ht : ∀ c ∈ t, c < Config.domain) : (buildLut t).wf :=
  enterCodes_wf t 0 [] ⟨List.Pairwise.nil, by simp⟩ ht

end Sys2Proof.Machine
end

