-- ==== Sys2Proof/Laws/State.lean ====
section
/-! SUPPORT. The small lemmas of the state: one per field per update, true by rfl, so that no later proof unfolds a record
update; and the pins a helper sets. -/

namespace Sys2Proof.Machine

@[simp] theorem placeItem_none (s : State) : s.placeItem none = s := rfl
@[simp] theorem placeItem_some_valid (s : State) (it : Item) : (s.placeItem (some it)).obufValid = true := rfl
@[simp] theorem placeItem_some_byte (s : State) (it : Item) : (s.placeItem (some it)).obufByte = it.byte := rfl
@[simp] theorem placeItem_some_cause (s : State) (it : Item) : (s.placeItem (some it)).obufCause = it.cause := rfl
@[simp] theorem placeItem_some_shown (s : State) (it : Item) : (s.placeItem (some it)).shownItem = it := rfl
@[simp] theorem placeItem_some_waiting (s : State) (it : Item) : (s.placeItem (some it)).waiting = [it] := rfl
@[simp] theorem placeItem_dec (s : State) (o : Option Item) : (s.placeItem o).dec = s.dec := by cases o <;> rfl
@[simp] theorem placeItem_invertQ (s : State) (o : Option Item) : (s.placeItem o).invertQ = s.invertQ := by cases o <;> rfl
@[simp] theorem placeItem_lut (s : State) (o : Option Item) : (s.placeItem o).lut = s.lut := by cases o <;> rfl
@[simp] theorem placeItem_host (s : State) (o : Option Item) : (s.placeItem o).host = s.host := by cases o <;> rfl

@[simp] theorem commit_dec (s : State) (r : DecodeState × Option Item) : (s.commit r).dec = r.1 := by simp [State.commit]
@[simp] theorem commit_invertQ (s : State) (r : DecodeState × Option Item) : (s.commit r).invertQ = s.invertQ := by
  simp [State.commit]
@[simp] theorem commit_lut (s : State) (r : DecodeState × Option Item) : (s.commit r).lut = s.lut := by simp [State.commit]
@[simp] theorem commit_host (s : State) (r : DecodeState × Option Item) : (s.commit r).host = s.host := by
  simp [State.commit]
@[simp] theorem commit_none (s : State) (d : DecodeState) : s.commit (d, none) = { s with dec := d } := rfl
@[simp] theorem commit_some (s : State) (d : DecodeState) (it : Item) :
    s.commit (d, some it) = { s with dec := d, obufValid := true, obufByte := it.byte, obufCause := it.cause } := rfl

@[simp] theorem giveItem_dec (s : State) : s.giveItem.dec = s.dec := rfl
@[simp] theorem giveItem_invertQ (s : State) : s.giveItem.invertQ = s.invertQ := rfl
@[simp] theorem giveItem_valid (s : State) : s.giveItem.obufValid = false := rfl
@[simp] theorem giveItem_byte (s : State) : s.giveItem.obufByte = s.obufByte := rfl
@[simp] theorem giveItem_cause (s : State) : s.giveItem.obufCause = s.obufCause := rfl
@[simp] theorem giveItem_lut (s : State) : s.giveItem.lut = s.lut := rfl
@[simp] theorem giveItem_edges (s : State) : s.giveItem.host.edges = s.host.edges := rfl
@[simp] theorem giveItem_units (s : State) : s.giveItem.host.unitsTaken = s.host.unitsTaken := rfl
@[simp] theorem giveItem_items (s : State) : s.giveItem.host.itemsTaken = s.host.itemsTaken ++ [s.shownItem] := rfl

@[simp] theorem recordUnit_dec (s : State) (b : Bool) : (s.recordUnit b).dec = s.dec := rfl
@[simp] theorem recordUnit_invertQ (s : State) (b : Bool) : (s.recordUnit b).invertQ = s.invertQ := rfl
@[simp] theorem recordUnit_valid (s : State) (b : Bool) : (s.recordUnit b).obufValid = s.obufValid := rfl
@[simp] theorem recordUnit_byte (s : State) (b : Bool) : (s.recordUnit b).obufByte = s.obufByte := rfl
@[simp] theorem recordUnit_cause (s : State) (b : Bool) : (s.recordUnit b).obufCause = s.obufCause := rfl
@[simp] theorem recordUnit_lut (s : State) (b : Bool) : (s.recordUnit b).lut = s.lut := rfl
@[simp] theorem recordUnit_edges (s : State) (b : Bool) : (s.recordUnit b).host.edges = s.host.edges := rfl
@[simp] theorem recordUnit_units (s : State) (b : Bool) : (s.recordUnit b).host.unitsTaken = s.host.unitsTaken ++ [b] := rfl
@[simp] theorem recordUnit_items (s : State) (b : Bool) : (s.recordUnit b).host.itemsTaken = s.host.itemsTaken := rfl

@[simp] theorem withEdges_dec (s : State) (ps : List Pins) : (s.withEdges ps).dec = s.dec := rfl
@[simp] theorem withEdges_invertQ (s : State) (ps : List Pins) : (s.withEdges ps).invertQ = s.invertQ := rfl
@[simp] theorem withEdges_valid (s : State) (ps : List Pins) : (s.withEdges ps).obufValid = s.obufValid := rfl
@[simp] theorem withEdges_byte (s : State) (ps : List Pins) : (s.withEdges ps).obufByte = s.obufByte := rfl
@[simp] theorem withEdges_cause (s : State) (ps : List Pins) : (s.withEdges ps).obufCause = s.obufCause := rfl
@[simp] theorem withEdges_lut (s : State) (ps : List Pins) : (s.withEdges ps).lut = s.lut := rfl
@[simp] theorem withEdges_edges (s : State) (ps : List Pins) : (s.withEdges ps).host.edges = ps := rfl
@[simp] theorem withEdges_units (s : State) (ps : List Pins) : (s.withEdges ps).host.unitsTaken = s.host.unitsTaken := rfl
@[simp] theorem withEdges_items (s : State) (ps : List Pins) : (s.withEdges ps).host.itemsTaken = s.host.itemsTaken := rfl

@[simp] theorem constructed_dec (s : State) (c : Bool) : (s.constructed c).dec = DecodeState.start := rfl
@[simp] theorem constructed_invertQ (s : State) (c : Bool) : (s.constructed c).invertQ = c := rfl
@[simp] theorem constructed_valid (s : State) (c : Bool) : (s.constructed c).obufValid = false := rfl
@[simp] theorem constructed_byte (s : State) (c : Bool) : (s.constructed c).obufByte = 0x00#8 := rfl
@[simp] theorem constructed_cause (s : State) (c : Bool) : (s.constructed c).obufCause = 0b00#2 := rfl
@[simp] theorem constructed_lut (s : State) (c : Bool) : (s.constructed c).lut = s.lut := rfl
@[simp] theorem constructed_edges (s : State) (c : Bool) : (s.constructed c).host.edges = s.host.edges := rfl
@[simp] theorem constructed_units (s : State) (c : Bool) : (s.constructed c).host.unitsTaken = [] := rfl
@[simp] theorem constructed_items (s : State) (c : Bool) : (s.constructed c).host.itemsTaken = [] := rfl

@[simp] theorem start_lwz : DecodeState.start.lwz = true := rfl
@[simp] theorem start_acc : DecodeState.start.acc = 0#12 := rfl
@[simp] theorem start_ovf : DecodeState.start.ovf = false := rfl

@[simp] theorem offerPins_rst (b : Bool) : (offerPins b).rst = false := rfl
@[simp] theorem offerPins_inValid (b : Bool) : (offerPins b).inValid = true := rfl
@[simp] theorem offerPins_inBit (b : Bool) : (offerPins b).inBit = b := rfl
@[simp] theorem offerPins_outReady (b : Bool) : (offerPins b).outReady = true := rfl

end Sys2Proof.Machine
end

