-- ==== Sys2Proof/Laws/Words.lean ====
section
/-! SUPPORT. What the operand forms and flag computations are as numbers: the bit forms of spec/40_accumulation.md against the
arithmetic of the source form. -/

namespace Sys2Proof.Machine

/-- T01's accumulator is `4 * acc + 1` modulo the domain. -/
theorem append01_toNat (a : AccWord) : (append01 a).toNat = (a.toNat * 4 + 1) % Config.domain := by
  simp only [append01, Config.domain, BitVec.toNat_append, BitVec.extractLsb'_toNat, BitVec.toNat_ofNat]
  rw [Nat.shiftLeft_eq, ← Nat.shiftLeft_eq, ← Nat.shiftLeft_add_eq_or_of_lt (by decide)]
  simp only [Nat.shiftLeft_eq, Nat.shiftRight_zero]
  omega

/-- T11's accumulator is `2 * acc + 1` modulo the domain. -/
theorem append1_toNat (a : AccWord) : (append1 a).toNat = (a.toNat * 2 + 1) % Config.domain := by
  simp only [append1, Config.domain, BitVec.toNat_append, BitVec.extractLsb'_toNat, BitVec.toNat_ofNat]
  rw [← Nat.shiftLeft_add_eq_or_of_lt (by decide)]
  simp only [Nat.shiftLeft_eq, Nat.shiftRight_zero]
  omega

/-- Bit 11 of the accumulator tells whether it is at least 2048. -/
theorem bit11_iff (a : AccWord) : a[11] = true ↔ 2048 ≤ a.toNat := by
  have h := a.isLt
  rw [← BitVec.getLsbD_eq_getElem, BitVec.getLsbD, Nat.testBit_eq_decide_div_mod_eq]
  simp only [decide_eq_true_eq]
  omega

/-- Bits 11 and 10 of the accumulator tell whether it is at least 1024. -/
theorem bit11_or_bit10_iff (a : AccWord) : (a[11] || a[10]) = true ↔ 1024 ≤ a.toNat := by
  have h := a.isLt
  rw [← BitVec.getLsbD_eq_getElem, ← BitVec.getLsbD_eq_getElem, BitVec.getLsbD, BitVec.getLsbD,
    Nat.testBit_eq_decide_div_mod_eq, Nat.testBit_eq_decide_div_mod_eq]
  simp only [Bool.or_eq_true, decide_eq_true_eq]
  omega

/-- T01 sets `ovf` exactly when it was set or `4 * acc + 1` leaves the domain. -/
theorem ovfAfter01_iff (d : DecodeState) :
    ovfAfter01 d = true ↔ d.ovf = true ∨ Config.domain ≤ d.acc.toNat * 4 + 1 := by
  have := bit11_or_bit10_iff d.acc
  simp only [ovfAfter01, Bool.or_assoc, Config.domain]
  rw [Bool.or_eq_true, this]
  constructor <;> rintro (h | h) <;> first | exact .inl h | (right; omega)

/-- T11 sets `ovf` exactly when it was set or `2 * acc + 1` leaves the domain. -/
theorem ovfAfter1_iff (d : DecodeState) :
    ovfAfter1 d = true ↔ d.ovf = true ∨ Config.domain ≤ d.acc.toNat * 2 + 1 := by
  have := bit11_iff d.acc
  simp only [ovfAfter1, Config.domain]
  rw [Bool.or_eq_true, this]
  constructor <;> rintro (h | h) <;> first | exact .inl h | (right; omega)

@[simp] theorem effectiveBit_false (b : Bool) : effectiveBit b false = b := by simp [effectiveBit]
@[simp] theorem effectiveBit_true (b : Bool) : effectiveBit b true = !b := by simp [effectiveBit]

theorem nothingAccumulated_iff (d : DecodeState) : nothingAccumulated d = true ↔ d.ovf = false ∧ d.acc = 0#12 := by
  simp [nothingAccumulated]

/-- The valid entry of symbol `s` has its valid bit set. -/
theorem lutValid_lutWord (s : Nat) : lutValid (lutWord s) = true := by
  rw [lutValid, ← BitVec.getLsbD_eq_getElem, BitVec.getLsbD, Nat.testBit_eq_decide_div_mod_eq, lutWord_toNat]
  simp only [decide_eq_true_eq]
  omega

/-- The item of a valid entry is the symbol's byte. -/
theorem symbolItem_lutWord {s : Nat} (h : s < 128) :
    symbolItem (lutWord s) = { byte := BitVec.ofNat 8 s, cause := Config.causeSym } := by
  have : zext8 (lutSym (lutWord s)) = BitVec.ofNat 8 s := by
    apply BitVec.eq_of_toNat_eq
    simp only [zext8, lutSym, BitVec.toNat_setWidth, BitVec.extractLsb'_toNat, lutWord_toNat,
      BitVec.toNat_ofNat, Nat.shiftRight_zero]
    omega
  simp [symbolItem, this]

end Sys2Proof.Machine
end

