-- ==== Sys2Proof/Laws/Stream.lean ====
section
/-! SUPPORT. What a decode step can do, by its selector, and how runs of units split. -/

namespace Sys2Proof.Machine

/-- The decode step by the four values of SEL2. -/
theorem decodeStep_eq (lut : Memory) (inv : Bool) (d : DecodeState) (b : Bool) :
    decodeStep lut inv d b =
      match d.lwz, effectiveBit b inv with
      | true, true => effectT01 d
      | false, true => effectT11 d
      | false, false => effectT10 d
      | true, false => effectT00 lut d := by
  unfold decodeStep
  cases d.lwz <;> cases effectiveBit b inv <;> rfl

/-- A decode step reads the unit through its effective bit alone. -/
theorem decodeStep_effective (lut : Memory) (inv : Bool) (d : DecodeState) (b : Bool) :
    decodeStep lut inv d b = decodeStep lut false d (effectiveBit b inv) := by
  simp [decodeStep]

theorem decodeStep_of_t01 (lut : Memory) {d : DecodeState} (h : d.lwz = true) :
    decodeStep lut false d true = effectT01 d := by rw [decodeStep_eq, h]; rfl

theorem decodeStep_of_t11 (lut : Memory) {d : DecodeState} (h : d.lwz = false) :
    decodeStep lut false d true = effectT11 d := by rw [decodeStep_eq, h]; rfl

theorem decodeStep_of_t10 (lut : Memory) {d : DecodeState} (h : d.lwz = false) :
    decodeStep lut false d false = effectT10 d := by rw [decodeStep_eq, h]; rfl

theorem decodeStep_of_t00 (lut : Memory) {d : DecodeState} (h : d.lwz = true) :
    decodeStep lut false d false = effectT00 lut d := by rw [decodeStep_eq, h]; rfl

/-- What the boundary puts out, by the four sub-cases. -/
theorem boundary_cases (lut : Memory) (d : DecodeState) :
    (d.ovf = false ∧ d.acc = 0#12 ∧ boundary lut d = none) ∨
    (d.ovf = true ∧ boundary lut d = some overflowItem) ∨
    (d.ovf = false ∧ d.acc ≠ 0#12 ∧ lutValid (lutAt lut d.acc) = false ∧ boundary lut d = some unknownItem) ∨
    (d.ovf = false ∧ d.acc ≠ 0#12 ∧ lutValid (lutAt lut d.acc) = true ∧
      boundary lut d = some (symbolItem (lutAt lut d.acc))) := by
  by_cases h0 : nothingAccumulated d = true
  · have h := (nothingAccumulated_iff d).mp h0
    exact .inl ⟨h.1, h.2, by simp [boundary, h0]⟩
  · have h := mt (nothingAccumulated_iff d).mpr h0
    cases hov : d.ovf
    · have hacc : d.acc ≠ 0#12 := fun hz => h ⟨hov, hz⟩
      cases hv : lutValid (lutAt lut d.acc) <;> simp [boundary, h0, hov, hacc, hv]
    · simp [boundary, h0, hov]

section
variable {σ : Type} (f : σ → Bool → σ × Option Item)

@[simp] theorem runUnits_nil (d : σ) : runUnits f d [] = (d, []) := rfl

theorem runUnits_cons (d : σ) (b : Bool) (u : List Bool) :
    runUnits f d (b :: u) = ((runUnits f (f d b).1 u).1, (f d b).2.toList ++ (runUnits f (f d b).1 u).2) := rfl

/-- Units run in two parts: the second part starts from the state the first part left. -/
theorem runUnits_append (d : σ) (u v : List Bool) :
    runUnits f d (u ++ v) = ((runUnits f (runUnits f d u).1 v).1, (runUnits f d u).2 ++ (runUnits f (runUnits f d u).1 v).2) := by
  induction u generalizing d with
  | nil => simp
  | cons b u ih => simp only [List.cons_append, runUnits_cons, ih, List.append_assoc]

end

@[simp] theorem decodeUnits_nil (lut : Memory) (inv : Bool) (d : DecodeState) : decodeUnits lut inv d [] = (d, []) := rfl

theorem decodeUnits_cons (lut : Memory) (inv : Bool) (d : DecodeState) (b : Bool) (u : List Bool) :
    decodeUnits lut inv d (b :: u) =
      ((decodeUnits lut inv (decodeStep lut inv d b).1 u).1,
        (decodeStep lut inv d b).2.toList ++ (decodeUnits lut inv (decodeStep lut inv d b).1 u).2) := rfl

theorem decodeUnits_append_state (lut : Memory) (inv : Bool) (d : DecodeState) (u v : List Bool) :
    (decodeUnits lut inv d (u ++ v)).1 = (decodeUnits lut inv (decodeUnits lut inv d u).1 v).1 := by
  simp only [decodeUnits, runUnits_append]

theorem decodeUnits_snoc (lut : Memory) (inv : Bool) (d : DecodeState) (u : List Bool) (b : Bool) :
    decodeUnits lut inv d (u ++ [b]) =
      ((decodeStep lut inv (decodeUnits lut inv d u).1 b).1,
        (decodeUnits lut inv d u).2 ++ (decodeStep lut inv (decodeUnits lut inv d u).1 b).2.toList) := by
  simp [decodeUnits, runUnits_append, runUnits_cons]

end Sys2Proof.Machine
end

