-- ==== Sys2Proof/Laws/Ops.lean ====
section
/-! SUPPORT. Each shared operation of the cycle once: what the transfers of an edge do, what an operation run by an accepted
unit does, and what a step can be. -/

namespace Sys2Proof.Machine

/-- All that making an instance from a code table can do (spec/42_lookup_table.md R120). -/
theorem withTable_cases (t : CodeTable) (s : State) :
    (t.Accepted ∧ withTable t s = .next { s with lut := buildLut t }) ∨
    (¬ t.Accepted ∧ ∃ d, withTable t s = .refused (.codeTable d)) := by
  unfold withTable CodeTable.Accepted
  cases h : CodeTable.check t with
  | none => exact .inl ⟨rfl, rfl⟩
  | some d => exact .inr ⟨by simp, d, rfl⟩

theorem inReady_iff (p : Pins) (s : State) :
    inReady p s = true ↔ p.rst = false ∧ (s.obufValid = false ∨ p.outReady = true) := by
  simp [inReady]

theorem outValid_iff (p : Pins) (s : State) : outValid p s = true ↔ s.obufValid = true ∧ p.rst = false := by
  simp [outValid]

theorem inFire_iff (p : Pins) (s : State) :
    inFire p s = true ↔ p.rst = false ∧ p.inValid = true ∧ (s.obufValid = false ∨ p.outReady = true) := by
  simp [inFire, inReady]; tauto

theorem outFire_iff (p : Pins) (s : State) :
    outFire p s = true ↔ p.rst = false ∧ s.obufValid = true ∧ p.outReady = true := by
  simp [outFire, outValid]; tauto

/-- There is no transfer at an edge of reset (spec/60_exceptions.md R174). -/
theorem transfers_of_rst {p : Pins} (h : p.rst = true) (s : State) : transfers p s = s := by
  simp [transfers, inFire, outFire, h]

@[simp] theorem transfers_dec (p : Pins) (s : State) : (transfers p s).dec = s.dec := by
  unfold transfers; cases outFire p s <;> cases inFire p s <;> rfl
@[simp] theorem transfers_invertQ (p : Pins) (s : State) : (transfers p s).invertQ = s.invertQ := by
  unfold transfers; cases outFire p s <;> cases inFire p s <;> rfl
@[simp] theorem transfers_lut (p : Pins) (s : State) : (transfers p s).lut = s.lut := by
  unfold transfers; cases outFire p s <;> cases inFire p s <;> rfl
@[simp] theorem transfers_byte (p : Pins) (s : State) : (transfers p s).obufByte = s.obufByte := by
  unfold transfers; cases outFire p s <;> cases inFire p s <;> rfl
@[simp] theorem transfers_cause (p : Pins) (s : State) : (transfers p s).obufCause = s.obufCause := by
  unfold transfers; cases outFire p s <;> cases inFire p s <;> rfl
@[simp] theorem transfers_edges (p : Pins) (s : State) : (transfers p s).host.edges = s.host.edges := by
  unfold transfers; cases outFire p s <;> cases inFire p s <;> rfl
theorem transfers_valid (p : Pins) (s : State) :
    (transfers p s).obufValid = (s.obufValid && !outFire p s) := by
  unfold transfers; cases h : outFire p s <;> cases inFire p s <;> simp
theorem transfers_units (p : Pins) (s : State) :
    (transfers p s).host.unitsTaken = s.host.unitsTaken ++ (if inFire p s then [p.inBit] else []) := by
  unfold transfers; cases outFire p s <;> cases inFire p s <;> simp
theorem transfers_items (p : Pins) (s : State) :
    (transfers p s).host.itemsTaken = s.host.itemsTaken ++ (if outFire p s then [s.shownItem] else []) := by
  unfold transfers; cases outFire p s <;> cases inFire p s <;> simp

/-- The item that waits either leaves at this edge or waits on. -/
theorem transfers_items_waiting (p : Pins) (s : State) :
    (transfers p s).host.itemsTaken ++ (transfers p s).waiting = s.host.itemsTaken ++ s.waiting := by
  unfold transfers
  cases h : outFire p s <;> cases inFire p s <;> simp [State.waiting, State.shownItem]
  all_goals (simp [(outFire_iff p s).mp h |>.2.1])

/-- The operation that the selector of an accepted unit names does what the decode step does with the unit: the two levels
take the same transition (spec/00_scope.md R6). -/
theorem exec_selected (s : State) (b : Bool) :
    exec (decode (.sel (selector s.dec.lwz (effectiveBit b s.invertQ)))) s =
      .next (s.commit (decodeStep s.lut s.invertQ s.dec b)) := by
  rw [decodeStep_eq]
  cases s.dec.lwz <;> cases effectiveBit b s.invertQ <;> rfl

/-- What one edge can do: a reset, the step of an accepted unit, or the transfers alone. -/
theorem clockEdge_cases (p : Pins) (s : State) :
    (p.rst = true ∧ clockEdge p s = .next (s.constructed p.cfgInvert)) ∨
    (p.rst = false ∧ inFire p s = true ∧
      clockEdge p s = .next ((transfers p s).commit (decodeStep s.lut s.invertQ s.dec p.inBit))) ∨
    (p.rst = false ∧ inFire p s = false ∧ clockEdge p s = .next (transfers p s)) := by
  cases hr : p.rst
  · cases hf : inFire p s
    · right; right
      simp [clockEdge, edgeRuns, hr, hf]
    · right; left
      refine ⟨rfl, rfl, ?_⟩
      have := exec_selected (transfers p s) p.inBit
      simpa [clockEdge, edgeRuns, fetchCode, hr, hf] using this
  · left
    simp [clockEdge, edgeRuns, fetchCode, hr, transfers_of_rst hr, decode, exec, execReset]

/-- What a step can be: nothing with no edge left, else the next edge. -/
theorem step_cases (s : State) :
    (s.host.edges = [] ∧ step s = .next s) ∨
    ∃ p rest, s.host.edges = p :: rest ∧ step s = clockEdge p (s.withEdges rest) := by
  unfold step nextEdge
  cases s.host.edges with
  | nil => exact .inl ⟨rfl, rfl⟩
  | cons p rest => exact .inr ⟨p, rest, rfl, rfl⟩

/-- Every instruction has a next state. -/
theorem exec_next (i : Instr) (s : State) : ∃ t, exec i s = .next t := by
  cases i <;> exact ⟨_, rfl⟩

end Sys2Proof.Machine
end

