-- ==== Sys2Proof/Laws/PerInstr.lean ====
section
/-! SUPPORT. Statements for all instructions, one lemma per constructor. -/

namespace Sys2Proof.Laws

/-- The number of an instruction's row in spec/opcode_table.json ("match"); RESET has none. -/
def tableMatch : Instr → Option Nat
  | .t01 => some 3
  | .t11 => some 1
  | .t10 => some 0
  | .t00 => some 2
  | .boundaryIdle => some 2
  | .emitOverflow => some 2
  | .emitUnknown => some 2
  | .emitSymbol => some 2
  | .reset _ => none

/-- The encoder writes the number of the instruction's row, as one byte, and no byte for RESET. -/
def EncodesTableRow.Statement (i : Instr) : Prop :=
  (encodeBytes i).map BitVec.toNat = (tableMatch i).toList

theorem EncodesTableRow.t01 : EncodesTableRow.Statement .t01 := rfl
theorem EncodesTableRow.t11 : EncodesTableRow.Statement .t11 := rfl
theorem EncodesTableRow.t10 : EncodesTableRow.Statement .t10 := rfl
theorem EncodesTableRow.t00 : EncodesTableRow.Statement .t00 := rfl
theorem EncodesTableRow.boundaryIdle : EncodesTableRow.Statement .boundaryIdle := rfl
theorem EncodesTableRow.emitOverflow : EncodesTableRow.Statement .emitOverflow := rfl
theorem EncodesTableRow.emitUnknown : EncodesTableRow.Statement .emitUnknown := rfl
theorem EncodesTableRow.emitSymbol : EncodesTableRow.Statement .emitSymbol := rfl
theorem EncodesTableRow.reset (cfgInvert : Bool) : EncodesTableRow.Statement (.reset cfgInvert) := rfl

end Sys2Proof.Laws
end

