-- ==== Sys2Proof/Tests/CodeTable.lean ====
section
/-! SUPPORT. Tests of the default code table and of the ROM built from it, with the values of spec/95_test_vectors.md (the
vector's id stands at each). They are apart from the other tests because the kernel evaluates the whole default table in
them. -/

namespace Sys2Proof.Tests

open Sys2Proof.Machine

theorem test_good_table : CodeTable.Accepted defaultCodeTable := by decide +kernel
/-- Three numbers that are no symbol's code. -/
theorem test_unused_codes :
    ∀ c < 128, codeOf defaultCodeTable c ≠ 0 ∧ codeOf defaultCodeTable c ≠ 2 ∧ codeOf defaultCodeTable c ≠ 4095 := by
  decide +kernel
/-- D-L1 to D-L9: the ROM of the default table. -/
theorem test_rom_entries :
    [0, 1, 2, 3, 683, 687, 731, 1023, 4095].map (buildLut defaultCodeTable).read =
      [0x00#8, 0xA0#8, 0x00#8, 0xE5#8, 0x80#8, 0xBF#8, 0x81#8, 0x00#8, 0x00#8] := by decide +kernel
/-- The numeral of the source's example. -/
theorem test_bin_683 : bin 683 = [true, false, true, false, true, false, true, false, true, true] := by decide +kernel

end Sys2Proof.Tests
end

