-- ==== Sys2Proof/Tests/Slice0.lean ====
section
/-! SUPPORT. Tests: words written out from the spec's encoding, single steps with the results of spec/95_test_vectors.md (the
vector's id stands at each), an ill-formed term for each check, and a state and operands that meet the hypotheses of each
statement. The default code table and its ROM have their tests in Sys2Proof/Tests/CodeTable.lean. -/

namespace Sys2Proof.Tests

open Sys2Proof.Machine

/-- The outcome is a next state with the given property. -/
def nextIs (o : Host.Outcome State Fault Refusal) (p : State → Bool) : Bool :=
  match o with
  | .next t => p t
  | .fault _ => false
  | .refused _ => false

/-- A ROM of three of the default table's entries: `e`, NUL and `?` (spec/95_test_vectors.md D-L4, D-L5, D-L6). -/
def smallLut : Memory := [(3, 0xE5#8), (683, 0x80#8), (687, 0xBF#8)]

/-- A state with an empty output buffer, no inversion and nothing on the pins. -/
def small (lwz : Bool) (acc : AccWord) (ovf : Bool) : State :=
  { dec := { lwz := lwz, acc := acc, ovf := ovf }, invertQ := false, obufValid := false, obufByte := 0#8, obufCause := 0#2,
    lut := smallLut, host := HostSide.idle }

/-- `s` with an item waiting. -/
def waitingItem (s : State) (b : Byte) (c : CauseCode) : State :=
  { s with obufValid := true, obufByte := b, obufCause := c }

/-- Pins in the order of the columns of spec/95_test_vectors.md section 2.10, `cfg_invert = 0`. -/
def pins (rst inValid inBit outReady : Bool) : Pins :=
  { rst := rst, cfgInvert := false, inValid := inValid, inBit := inBit, outReady := outReady }

/-! ### Decoding -/

/-- 2'b11 (spec/30_encoding.md R62). -/
theorem test_word_t01 : decodeTableWord 8 0b11 = some .t01 := by decide
/-- 2'b01 (R62). -/
theorem test_word_t11 : decodeTableWord 8 0b01 = some .t11 := by decide
/-- 2'b00 (R62). -/
theorem test_word_t10 : decodeTableWord 8 0b00 = some .t10 := by decide
/-- 2'b10 (R62). -/
theorem test_word_t00 : decodeTableWord 8 0b10 = some .t00 := by decide
/-- 2'b10 with `ovf = 0`, `acc = 0` (R101). -/
theorem test_row_boundaryIdle : decodeRow (.sel 0b10#2) 0#12 false 0x00#8 = .boundaryIdle := by decide
/-- 2'b10 with `ovf = 1`, also with `acc = 0` and with a valid entry (R102; D-E8, D-E9). -/
theorem test_row_emitOverflow : decodeRow (.sel 0b10#2) 0#12 true 0x00#8 = .emitOverflow ∧
    decodeRow (.sel 0b10#2) 0x555#12 true 0x80#8 = .emitOverflow := by decide
/-- 2'b10 with `ovf = 0`, `acc ≠ 0` and an invalid entry (R103). -/
theorem test_row_emitUnknown : decodeRow (.sel 0b10#2) 0x3FF#12 false 0x00#8 = .emitUnknown := by decide
/-- 2'b10 with `ovf = 0`, `acc ≠ 0` and a valid entry (R104). -/
theorem test_row_emitSymbol : decodeRow (.sel 0b10#2) 0x2AB#12 false 0x80#8 = .emitSymbol := by decide
/-- The pin `rst` with either value of `cfg_invert` (R190). -/
theorem test_ctrl_reset : decode (.ctrl true) = .reset true ∧ decode (.ctrl false) = .reset false := by decide
/-- No byte, and a byte wider than SEL2 (log 8). -/
theorem test_refused_bytes : decodeBytes [] = .error .noWord ∧ decodeBytes [0x04#8] = .error (.widerThanSel2 0x04#8) := by
  decide
/-- D-S1 to D-S8: the transition of each `invert_q`, unit and `lwz`. -/
theorem test_selection :
    [(false, false, false), (false, true, false), (false, false, true), (false, true, true),
     (true, false, true), (true, true, true), (true, true, false), (true, false, false)].map
      (fun x => decode (.sel (selector x.2.2 (effectiveBit x.2.1 x.1)))) =
    [.t10, .t11, .t00, .t01, .t01, .t00, .t10, .t11] := by decide

/-! ### Ill-formed terms, one for each check -/

theorem test_bad_table_length : CodeTable.check [] = some .notNSymbols := by decide
theorem test_bad_unit : unitOf? 2 = none := by decide
theorem test_bad_lutEntry : lutEntryWf 0x05#8 = false := by decide
theorem test_bad_memory : ¬ Memory.wf [(3, 1#8), (3, 2#8)] ∧ ¬ Memory.wf [(3, 0#8)] ∧ ¬ Memory.wf [(4096, 1#8)] := by decide
theorem test_bad_selection :
    Instr.t01.selectedBy false true 0#12 false 0#8 = false ∧ Instr.t11.selectedBy true true 0#12 false 0#8 = false ∧
    Instr.t10.selectedBy true false 0#12 false 0#8 = false ∧ Instr.t00.selectedBy false false 0#12 false 0#8 = false ∧
    Instr.boundaryIdle.selectedBy true false 0#12 true 0#8 = false ∧
    Instr.emitOverflow.selectedBy true false 5#12 false 0#8 = false ∧
    Instr.emitUnknown.selectedBy true false 3#12 false 0xE5#8 = false ∧
    Instr.emitSymbol.selectedBy true false 2#12 false 0#8 = false := by decide

/-! ### One step of each instruction -/

/-- D-A2. -/
theorem test_t01_appends : nextIs (exec .t01 (small true 0x005#12 false)) (fun t => t = small false 0x015#12 false) := by decide
/-- D-A4: a bit shifts out, `ovf` is set. -/
theorem test_t01_overflows : nextIs (exec .t01 (small true 0x555#12 false)) (fun t => t = small false 0x555#12 true) := by decide
/-- D-A6: the last unit of 683. -/
theorem test_t11_appends : nextIs (exec .t11 (small false 0x155#12 false)) (fun t => t = small false 0x2AB#12 false) := by decide
/-- D-A8: the thirteenth one. -/
theorem test_t11_overflows : nextIs (exec .t11 (small false 0xFFF#12 false)) (fun t => t = small false 0xFFF#12 true) := by decide
/-- D-A11. -/
theorem test_t10_pends : nextIs (exec .t10 (small false 0x2AB#12 false)) (fun t => t = small true 0x2AB#12 false) := by decide
/-- D-A12. -/
theorem test_t10_keeps_ovf : nextIs (exec .t10 (small false 0xFFF#12 true)) (fun t => t = small true 0xFFF#12 true) := by decide
/-- D-E2: symbol 0. -/
theorem test_t00_symbol : nextIs (exec .t00 (small true 0x2AB#12 false))
    (fun t => t = waitingItem (small true 0#12 false) 0x00#8 0b00#2) := by decide
/-- D-E8: `ovf` wins over a look-up of `acc`; here the entry at `acc` is valid. -/
theorem test_t00_overflow_first : nextIs (exec .t00 (small true 0x2AB#12 true))
    (fun t => t = waitingItem (small true 0#12 false) 0x3F#8 0b10#2) := by decide
/-- D-E1. -/
theorem test_boundaryIdle_nothing : nextIs (exec .boundaryIdle (small true 0#12 false)) (fun t => t = small true 0#12 false) := by
  decide
/-- D-E9: `ovf` with `acc = 0` is not idle. -/
theorem test_emitOverflow_zero : nextIs (exec .emitOverflow (small true 0#12 true))
    (fun t => t = waitingItem (small true 0#12 false) 0x3F#8 0b10#2) := by decide
/-- D-E6. -/
theorem test_emitUnknown_ten_ones : nextIs (exec .emitUnknown (small true 0x3FF#12 false))
    (fun t => t = waitingItem (small true 0#12 false) 0x3F#8 0b01#2) := by decide
/-- D-E4. -/
theorem test_emitSymbol_e : nextIs (exec .emitSymbol (small true 0x003#12 false))
    (fun t => t = waitingItem (small true 0#12 false) 0x65#8 0b00#2) := by decide
/-- D-E5: the genuine `?` has cause SYM. -/
theorem test_emitSymbol_question : nextIs (exec .emitSymbol (small true 0x2AF#12 false))
    (fun t => t = waitingItem (small true 0#12 false) 0x3F#8 0b00#2) := by decide
/-- D-R1. -/
theorem test_reset_constructs : nextIs (exec (.reset true) (waitingItem (small false 0x2AB#12 false) 0x20#8 0b01#2))
    (fun t => t = { small true 0#12 false with invertQ := true }) := by decide

/-! ### One edge, the ROM, and the functions over streams -/

/-- Section 2.10, edge 3: the consumer is not ready, the buffer is empty, the unit is taken. -/
theorem test_edge_accepts_into_empty_buffer :
    nextIs (step ((small true 0x003#12 false).withEdges [pins false true false false]))
      (fun t => t.waiting = [{ byte := 0x65#8, cause := 0b00#2 }] ∧ t.dec = DecodeState.start ∧ t.host.itemsTaken = []) := by
  decide
/-- Section 2.10, edge 4: the item holds, no unit is taken. -/
theorem test_edge_holds :
    nextIs (step ((waitingItem (small true 0#12 false) 0x20#8 0b00#2).withEdges [pins false true true false]))
      (fun t => t = waitingItem (small true 0#12 false) 0x20#8 0b00#2) := by decide
/-- Section 2.10, edge 7: both transfers at one edge. -/
theorem test_edge_both_transfers :
    nextIs (step ((waitingItem (small true 0#12 false) 0x20#8 0b00#2).withEdges [pins false true true true]))
      (fun t => t.dec = { lwz := false, acc := 1#12, ovf := false } ∧ t.obufValid = false ∧ t.obufByte = 0x20#8 ∧
        t.host.itemsTaken = [{ byte := 0x20#8, cause := 0b00#2 }] ∧ t.host.unitsTaken = [true]) := by decide
/-- D-R2: after a reset with `cfg_invert = 1` an input 0 acts as a one. -/
theorem test_edge_inverted :
    nextIs (step ({ small true 0#12 false with invertQ := true }.withEdges [pins false true false true]))
      (fun t => t.dec = { lwz := false, acc := 1#12, ovf := false } ∧ t.invertQ = true) := by decide
/-- A table word placed after reset is run by the next step. -/
theorem test_fetchWord_t11 : nextIs (step (State.reset.withFetchWord 8 0b01))
    (fun t => t.dec = { lwz := false, acc := 1#12, ovf := false }) := by decide
/-- D-C2 and D-C1 on `SYM('e') SYM('e')`: the call stops at its capacity, and consumes nothing without one. -/
theorem test_chunk_stops :
    decodeChunk smallLut false DecodeState.start [true, true, false, false, true, true, false, false] 1 =
      { state := DecodeState.start, items := [{ byte := 0x65#8, cause := 0b00#2 }], consumed := 4, produced := 1 } ∧
    (decodeChunk smallLut false DecodeState.start [true, true] 0).consumed = 0 := by decide
/-- S7: a bit program in three chunks. -/
theorem test_parse_chunks : parseProgram ['1', '0', '1', ' ', '|', '0', '0', '|'] =
    some [[true, false, true], [false, false], []] := by decide
/-- A character that is none of R69's. -/
theorem test_parse_refuses : parseProgram ['1', '2'] = none := by decide

/-! ### States and operands that meet the hypotheses of the statements -/

theorem witness_DecodeEncodeAgree :
    Instr.t01.selectedBy true true 0#12 false 0#8 = true ∧ Instr.boundaryIdle.selectedBy true false 0#12 false 0#8 = true ∧
    Instr.emitOverflow.selectedBy true false 0#12 true 0#8 = true ∧
    Instr.emitUnknown.selectedBy true false 1#12 false 0x7F#8 = true ∧
    Instr.emitSymbol.selectedBy true false 0xFFF#12 false 0x80#8 = true ∧
    (Instr.reset true).selectedBy false false 0#12 false 0#8 = true ∧
    encode .t01 = .sel 0b11#2 ∧ (Instr.t01.isWhole = true ∧ encodeBytes .t01 ≠ []) ∧
    decodeAll [0x03#8, 0x02#8] = .ok [.t01, .t00] := by decide

theorem witness_SelectorSelectsOneRow : Instr.emitUnknown ≠ .t00 ∧ ∀ c, Instr.emitUnknown ≠ .reset c := by decide

/-- The largest accumulator that T01 keeps in the domain, and the smallest that it does not. -/
theorem witness_OneAfterZeroResult :
    (∃ t, exec .t01 (small true 1023#12 false) = .next t) ∧
    Represents (small true 1023#12 false).dec { lwz := true, A := 1023 } ∧
    Represents (small true 1024#12 false).dec { lwz := true, A := 1024 } :=
  ⟨⟨_, rfl⟩, ⟨rfl, by decide, by decide⟩, ⟨rfl, by decide, by decide⟩⟩

/-- The largest accumulator that T11 keeps in the domain, and one that has left it. -/
theorem witness_OneAfterOneResult :
    (∃ t, exec .t11 (small false 2047#12 false) = .next t) ∧
    Represents (small false 2047#12 false).dec { lwz := false, A := 2047 } ∧
    Represents (small false 0#12 true).dec { lwz := false, A := 4096 } :=
  ⟨⟨_, rfl⟩, ⟨rfl, by decide, by decide⟩, ⟨rfl, by decide, by decide⟩⟩

theorem witness_IdleBoundaryMakesNothing :
    (small true 0#12 false).dec = { lwz := true, acc := 0#12, ovf := false } := by decide

theorem witness_OverflowMakesOneSentinel :
    (small true 0#12 true).dec.ovf = true ∧ 13 ≤ 13 ∧ (onesUnits 12).length ≤ 12 := by decide

theorem witness_UnknownMakesSentinel :
    CodeTable.Accepted defaultCodeTable ∧ State.reset.lut = buildLut defaultCodeTable ∧
    (4095#12 : AccWord) ≠ 0#12 ∧ (∀ c < 128, codeOf defaultCodeTable c ≠ (4095#12 : AccWord).toNat) ∧
    (∀ c < 128, codeOf defaultCodeTable c ≠ (2#12 : AccWord).toNat) :=
  ⟨test_good_table, rfl, by decide, fun c h => (test_unused_codes c h).2.2, fun c h => (test_unused_codes c h).2.1⟩

theorem witness_SymbolMakesItsIndex :
    ((small true 3#12 false).dec.ovf = false ∧ (small true 3#12 false).dec.acc ≠ 0#12 ∧
      ((small true 3#12 false).lut.read (small true 3#12 false).dec.acc.toNat)[7] = true) ∧
    CodeTable.Accepted defaultCodeTable ∧ State.reset.lut = buildLut defaultCodeTable ∧
    (683#12 : AccWord).toNat = codeOf defaultCodeTable 0 ∧ (949#12 : AccWord).toNat = codeOf defaultCodeTable 127 :=
  ⟨by decide, test_good_table, rfl, by decide, by decide⟩

theorem witness_EveryBoundaryEndsAtStart :
    ∀ i ∈ [Instr.t00, .boundaryIdle, .emitOverflow, .emitUnknown, .emitSymbol],
      i ∈ [Instr.t00, .boundaryIdle, .emitOverflow, .emitUnknown, .emitSymbol] := by decide

theorem witness_ResetEdgesConstruct :
    (pins true true true true).rst = true ∧ ∀ q ∈ [pins true false false true, pins true true true false], q.rst = true := by
  decide

theorem witness_InstructionFrame :
    (∃ t, exec .t10 (small false 5#12 true) = .next t) ∧ (∃ t, exec .boundaryIdle (small true 0#12 false) = .next t) ∧
    (∃ t, exec .emitSymbol (small true 3#12 false) = .next t) ∧ (∃ t, exec (.reset true) (small true 3#12 false) = .next t) ∧
    (∀ c, Instr.emitSymbol ≠ .reset c) :=
  ⟨⟨_, rfl⟩, ⟨_, rfl⟩, ⟨_, rfl⟩, ⟨_, rfl⟩, by decide⟩

theorem witness_StepRunsDecodedInstruction :
    (small true 0#12 false).host.edges = [] ∧
    ((small true 0#12 false).withEdges [pins true false false false]).host.edges = [pins true false false false] ∧
    (pins true false false false).rst = true ∧
    inFire (pins false true true true) (small true 0#12 false) = true ∧
    inFire (pins false false true true) (small true 0#12 false) = false := by decide

theorem witness_TableWordRunsNext : 0 < 4 ∧ 3 < 4 := by decide

/-- An edge of reset, one that makes an item, one that makes none while an item leaves, and one without a unit. -/
theorem witness_CycleStepFollowsDecodeStep :
    ((small true 3#12 false).withEdges [pins false true false false]).host.edges = [pins false true false false] ∧
    (pins true false false false).rst = true ∧
    inFire (pins false true false false) (small true 3#12 false) = true ∧
    (decodeStep smallLut false (small true 3#12 false).dec false).2 = some { byte := 0x65#8, cause := 0b00#2 } ∧
    inFire (pins false true true true) (waitingItem (small true 0#12 false) 0x20#8 0b00#2) = true ∧
    (decodeStep smallLut false (small true 0#12 false).dec true).2 = none ∧
    inFire (pins false true true false) (waitingItem (small true 0#12 false) 0x20#8 0b00#2) = false ∧
    (waitingItem (small true 0#12 false) 0x20#8 0b00#2).dec = DecodeState.start := by decide

theorem witness_TransfersMoveOneEach :
    (∃ t, step ((waitingItem (small true 0#12 false) 0x20#8 0b00#2).withEdges [pins false true true true]) = .next t) ∧
    (∃ t, step ((waitingItem (small true 0#12 false) 0x20#8 0b00#2).withEdges [pins false true true false]) = .next t) ∧
    inFire (pins false true true false) (waitingItem (small true 0#12 false) 0x20#8 0b00#2) = false :=
  ⟨⟨_, rfl⟩, ⟨_, rfl⟩, by decide⟩

theorem witness_OfferedItemHeld :
    (waitingItem (small true 0#12 false) 0x20#8 0b00#2).obufValid = true ∧
    ∀ p ∈ [pins false true true false, pins false false true false], p.rst = false ∧ p.outReady = false := by decide

theorem witness_WaitingKeepsDecodeState :
    (pins false false true true).rst = false ∧ (pins false false true true).inValid = false ∧
    outFire (pins false false true true) (waitingItem (small true 0#12 false) 0x20#8 0b00#2) = true ∧
    inReady (pins false true true false) (waitingItem (small true 0#12 false) 0x20#8 0b00#2) = false ∧
    outFire (pins false true true false) (waitingItem (small true 0#12 false) 0x20#8 0b00#2) = false := by decide

theorem witness_NothingEverStops :
    ((pins false true true false).rst = false ∧ (pins false true true false).inValid = true ∧
      (small true 0#12 false).obufValid = false) ∧
    decodeWideUnit smallLut false DecodeState.start 2 = .error (.unitNotBinary 2) ∧
    construct [] false = .refused (.codeTable .notNSymbols) ∧
    State.powerUp [] [] = .refused (.codeTable .notNSymbols) :=
  ⟨by decide, rfl, rfl, rfl⟩

theorem witness_WideUnitsRefused : 2 ≤ 2 := by decide

theorem witness_TablesAcceptedExactly : CodeTable.Accepted defaultCodeTable ∧ ¬ CodeTable.Accepted [] :=
  ⟨test_good_table, by decide⟩

theorem witness_RomInvertsCodeTable :
    CodeTable.Accepted defaultCodeTable ∧ codeOf defaultCodeTable 0 = 683 ∧ codeOf defaultCodeTable 127 = 949 ∧
    (∀ s < 128, codeOf defaultCodeTable s ≠ 0) ∧ (∀ s < 128, codeOf defaultCodeTable s ≠ 4095) :=
  ⟨test_good_table, by decide, by decide, fun c h => (test_unused_codes c h).1, fun c h => (test_unused_codes c h).2.2⟩

theorem witness_RomIsConstant :
    ∃ t, Host.Core.run Sys2Proof.core 1 ((small true 0#12 false).withEdges [pins true false false false]) = .next t := ⟨_, rfl⟩

theorem witness_RomFormKept :
    (∃ t, construct defaultCodeTable true = .next t) ∧ (small true 0#12 false).lut.wf ∧ LutWordsWf (small true 0#12 false).lut ∧
    ∃ t, step ((small true 0#12 false).withEdges [pins false true true true]) = .next t := by
  refine ⟨?_, by decide, ?_, ⟨_, rfl⟩⟩
  · obtain ⟨_, h⟩ | ⟨h, _⟩ := withTable_cases defaultCodeTable { State.reset with invertQ := true }
    · exact ⟨_, h⟩
    · exact absurd test_good_table h
  · exact show ∀ c ∈ smallLut, lutEntryWf c.2 = true by decide

/-- Two different ROMs that agree at `acc`. -/
theorem witness_RomReadOnlyAtBoundary :
    Memory.read smallLut (3#12 : AccWord).toNat = Memory.read [(3, 0xE5#8)] (3#12 : AccWord).toNat ∧
    smallLut ≠ [(3, 0xE5#8)] := by decide

/-- The last value of the domain, and the first beyond it. -/
theorem witness_RegisterPairAnswersForSource :
    Represents { lwz := true, acc := 4095#12, ovf := false } { lwz := true, A := 4095 } ∧
    Represents { lwz := true, acc := 0#12, ovf := true } { lwz := true, A := 4096 } ∧
    Represents { lwz := true, acc := 0#12, ovf := false } { lwz := true, A := 0 } :=
  ⟨⟨rfl, by decide, by decide⟩, ⟨rfl, by decide, by decide⟩, ⟨rfl, by decide, by decide⟩⟩

theorem witness_AllAccumulatorFormsAgree : 14 ≤ 14 := by decide

theorem witness_LookupWithBoundCheck :
    Represents { lwz := true, acc := 3#12, ovf := true } { lwz := true, A := 4099 } ∧
    Represents { lwz := true, acc := 4095#12, ovf := false } { lwz := true, A := 4095 } ∧
    (smallLut.read (4095#12 : AccWord).toNat)[7] = false ∧
    Represents { lwz := true, acc := 3#12, ovf := false } { lwz := true, A := 3 } ∧
    (smallLut.read (3#12 : AccWord).toNat)[7] = true :=
  ⟨⟨rfl, by decide, by decide⟩, ⟨rfl, by decide, by decide⟩, by decide, ⟨rfl, by decide, by decide⟩, by decide⟩

theorem witness_AccumulatorOnlyGrows :
    (small true 5#12 true).dec.lwz = true ∧ (false ^^ false) = false ∧ (small false 5#12 true).dec.lwz = false ∧
    (true ^^ false) = true ∧ (small false 5#12 true).dec.ovf = true := by decide

/-- A pattern that has just overflowed, at a step. -/
theorem witness_AccumulatorShapeKept :
    (small false 0xFFF#12 true).dec.Shaped ∧
    ∃ t, step ((small false 0xFFF#12 true).withEdges [pins false true true true]) = .next t := by
  refine ⟨⟨?_, ?_, ?_, ?_⟩, ⟨_, rfl⟩⟩
  · intro _; right; rfl
  · right; decide
  · intro h; exact absurd h (by decide)
  · intro _; decide

/-- An item has been made from `11` `00` and waits. -/
def afterE : State :=
  { waitingItem (small true 0#12 false) 0x65#8 0b00#2 with
    host := { edges := [pins false true true true], unitsTaken := [true, true, false, false], itemsTaken := [] } }

theorem witness_LevelsAgreeKept : afterE.LevelsAgree ∧ ∃ t, step afterE = .next t :=
  ⟨by unfold State.LevelsAgree; decide, ⟨_, rfl⟩⟩

theorem witness_ItemsTakenArePrefix : afterE.LevelsAgree ∧ ∃ t, Host.Core.run Sys2Proof.core 1 afterE = .next t :=
  ⟨witness_LevelsAgreeKept.1, ⟨_, rfl⟩⟩

theorem witness_BufferApartKept : afterE.BufferApart ∧ afterE.obufValid = true ∧ ∃ t, step afterE = .next t :=
  ⟨fun _ => rfl, rfl, ⟨_, rfl⟩⟩

theorem witness_OnlyLegalItems :
    (decodeStep smallLut false (small true 3#12 false).dec false).2 = some { byte := 0x65#8, cause := 0b00#2 } ∧
    (∀ it ∈ afterE.host.itemsTaken ++ afterE.waiting, it.Legal) ∧ ∃ t, step afterE = .next t := by
  refine ⟨by decide, ?_, ⟨_, rfl⟩⟩
  intro it h
  fin_cases h
  exact .inl ⟨by decide, by decide⟩

theorem witness_InversionFixedBetweenResets :
    (pins false true true true).rst = false ∧ (pins true false false false).rst = true := by decide

theorem witness_RecordsActOnNothing : ∃ t, step afterE = .next t := ⟨_, rfl⟩

theorem witness_PatternAccumulatesToCode :
    (0 < 1 ∧ 1 < 4096 ∧ hasDoubleZero (bin 1) = false ∧ (bin 1).getLast? = some true) ∧
    (0 < 4095 ∧ 4095 < 4096 ∧ hasDoubleZero (bin 4095) = false ∧ (bin 4095).getLast? = some true) := by decide +kernel

theorem witness_SymbolRoundTrip : CodeTable.Accepted defaultCodeTable ∧ 0 < 128 ∧ 127 < 128 :=
  ⟨test_good_table, by decide, by decide⟩

theorem witness_UniqueDecoding :
    CodeTable.Accepted defaultCodeTable ∧ (∀ c ∈ [(0, 2), (127, 0)], c.1 < 128) ∧
    pattern defaultCodeTable 127 = pattern defaultCodeTable 127 :=
  ⟨test_good_table, by decide, rfl⟩

theorem witness_StreamResynchronises :
    CodeTable.Accepted defaultCodeTable ∧ (∀ c ∈ [(0, 2), (127, 0)], c.1 < 128) ∧
    true ∈ [false, true, false, true] ∧ hasDoubleZero ([false, true, false, true] ++ [false]) = false :=
  ⟨test_good_table, by decide, by decide, by decide⟩

theorem witness_ResetLwzUnobservable : ([false] : List Bool) ≠ [] := by decide

/-- A state of each value of `lwz`, with a stream that completes no boundary from it. -/
theorem witness_FlushByTerminator :
    (small true 0#12 true).dec.ovf = true ∧ (small true 1#12 false).dec.acc ≠ 0#12 ∧ (small true 1#12 false).dec.lwz = true ∧
    (small false 1#12 false).dec.lwz = false ∧
    hasDoubleZero ((if (small false 1#12 false).dec.lwz then [false] else []) ++ [false, true, false].map (· ^^ false)) = false ∧
    hasDoubleZero ((if (small true 1#12 false).dec.lwz then [false] else []) ++ [true, false, true].map (· ^^ false)) = false ∧
    hasDoubleZero ((if (small true 1#12 false).dec.lwz then [false] else []) ++ [false].map (· ^^ false)) = true := by decide

theorem witness_ChunkStopsAtCapacity : 0 < (decodeChunk smallLut false DecodeState.start [true, true] 1).consumed ∧
    [true, true].length ≤ 2 := by decide

/-- Two calls, the first of two units, the second of the rest: every unit is consumed. -/
theorem witness_ChunkBoundariesTransparent :
    (decodeCalls smallLut false { state := DecodeState.start, items := [], rest := [true, true, false, false] }
      [(2, 1), (2, 1)]).rest = [] := by decide

theorem witness_OneUnitPerEdge :
    ((small true 3#12 false).withEdges [pins false true false true]).host.edges = [pins false true false true] ∧
    inFire (pins false true false true) ((small true 3#12 false).withEdges [pins false true false true]) = true ∧
    (decodeStep smallLut false (small true 3#12 false).dec false).2 = some { byte := 0x65#8, cause := 0b00#2 } ∧
    ∃ t, step ((small true 3#12 false).withEdges [pins false true false true]) = .next t :=
  ⟨by decide, by decide, by decide, ⟨_, rfl⟩⟩

/-- A run that ends: at its one edge the item of `11` `00` leaves and no unit is offered. -/
theorem witness_EndedRunGaveEverything :
    let s := afterE.withEdges [pins false false false true]
    s.LevelsAgree ∧ ∃ t, Host.Core.run Sys2Proof.core 1 s = .next t ∧ t.RunEnded [true, true, false, false] ∧
      t.host.itemsTaken = [{ byte := 0x65#8, cause := 0b00#2 }] :=
  ⟨by unfold State.LevelsAgree; decide, _, rfl, ⟨rfl, rfl⟩, rfl⟩

theorem witness_BootByOneResetEdge : CodeTable.Accepted defaultCodeTable ∧ (pins true false false false).rst = true :=
  ⟨test_good_table, rfl⟩

/-! ### Ill-formed code tables (last, because the kernel takes longest for them) -/

/-- A value 0, a value beyond 4095, 9 = `1001`, 10 = `1010`, and a value used twice. -/
theorem test_bad_table_values :
    CodeTable.check (defaultCodeTable.set 0 0) = some .outOfRange ∧
    CodeTable.check (defaultCodeTable.set 127 4096) = some .outOfRange ∧
    CodeTable.check (defaultCodeTable.set 5 9) = some .doubleZero ∧
    CodeTable.check (defaultCodeTable.set 5 10) = some .endsInZero ∧
    CodeTable.check (defaultCodeTable.set 0 731) = some .duplicate := by decide +kernel

end Sys2Proof.Tests
end

section
/-! PROOFS. The ROM: which decode steps read it, and where (spec/20_memory.md R41). -/

namespace Sys2Proof.Machine

/-! ### The boundary's output, by what it reads of the ROM -/

theorem boundary_of_nothing (lut : Memory) {d : DecodeState} (hovf : d.ovf = false) (hacc : d.acc = 0#12) :
    boundary lut d = none := by
  simp [boundary, nothingAccumulated, hovf, hacc]

theorem boundary_of_overflow (lut : Memory) {d : DecodeState} (hovf : d.ovf = true) :
    boundary lut d = some overflowItem := by
  simp [boundary, nothingAccumulated, hovf]

/-- The one case in which the ROM is read: its entry at `acc` alone decides the item. -/
theorem boundary_of_lookup (lut : Memory) {d : DecodeState} (hovf : d.ovf = false) (hacc : d.acc ≠ 0#12) :
    boundary lut d =
      some (if lutValid (lutAt lut d.acc) then symbolItem (lutAt lut d.acc) else unknownItem) := by
  cases hvalid : lutValid (lutAt lut d.acc) <;> simp [boundary, nothingAccumulated, hovf, hacc, hvalid]

/-! ### Two ROMs -/

/-- Two ROMs with the same entry at `acc`, where it is looked up, give the same boundary. -/
theorem boundary_eq_of_read_eq {lut lut' : Memory} {d : DecodeState}
    (hread : d.ovf = false → d.acc ≠ 0#12 → lut.read d.acc.toNat = lut'.read d.acc.toNat) :
    boundary lut d = boundary lut' d := by
  cases hovf : d.ovf with
  | true => rw [boundary_of_overflow lut hovf, boundary_of_overflow lut' hovf]
  | false =>
    by_cases hacc : d.acc = 0#12
    · rw [boundary_of_nothing lut hovf hacc, boundary_of_nothing lut' hovf hacc]
    · have hentry : lutAt lut d.acc = lutAt lut' d.acc := hread hovf hacc
      rw [boundary_of_lookup lut hovf hacc, boundary_of_lookup lut' hovf hacc, hentry]

/-- T00 is the only transition whose result depends on the ROM, and it does so through its boundary. -/
theorem decodeStep_eq_of_boundary_eq {lut lut' : Memory} {inv : Bool} {d : DecodeState} {b : Bool}
    (hboundary : d.lwz = true → effectiveBit b inv = false → boundary lut d = boundary lut' d) :
    decodeStep lut inv d b = decodeStep lut' inv d b := by
  rw [decodeStep_eq, decodeStep_eq]
  cases hlwz : d.lwz <;> cases he : effectiveBit b inv
  case true.false => simp only [effectT00, hboundary hlwz he]
  all_goals rfl

/-- Settles O32: only T00 reads the ROM, and its boundary reads it only at `acc`, when `ovf = 0` and `acc ≠ 0`. -/
theorem romReadOnlyAtBoundary : Obligations.RomReadOnlyAtBoundary := by
  intro lut lut' inv d b hread
  exact decodeStep_eq_of_boundary_eq fun hlwz he => boundary_eq_of_read_eq (hread hlwz he)

end Sys2Proof.Machine
end

section
/-! PROOFS. The decoder: what each selector decodes to, how T00 splits, and which unit a decode step reads
(spec/30_encoding.md R61, R62). -/

namespace Sys2Proof

open Machine

/-! ### The selector -/

@[simp] theorem selector_lwz_bit (lwz e : Bool) : (selector lwz e)[1] = lwz := by
  cases lwz <;> cases e <;> rfl

@[simp] theorem selector_effective_bit (lwz e : Bool) : (selector lwz e)[0] = e := by
  cases lwz <;> cases e <;> rfl

theorem decode_selector_one_after_zero : decode (.sel (selector true true)) = .t01 := rfl

theorem decode_selector_one_after_one : decode (.sel (selector false true)) = .t11 := rfl

theorem decode_selector_zero_after_one : decode (.sel (selector false false)) = .t10 := rfl

theorem decode_selector_zero_after_zero : decode (.sel (selector true false)) = .t00 := rfl

/-! ### The row that the selector and the state decode to -/

section
variable (acc : AccWord) (ovf : Bool) (entry : Byte)

theorem decodeRow_one_after_zero : decodeRow (.sel (selector true true)) acc ovf entry = .t01 := rfl

theorem decodeRow_one_after_one : decodeRow (.sel (selector false true)) acc ovf entry = .t11 := rfl

theorem decodeRow_zero_after_one : decodeRow (.sel (selector false false)) acc ovf entry = .t10 := rfl

theorem decodeRow_zero_after_zero :
    decodeRow (.sel (selector true false)) acc ovf entry = subCase acc ovf entry := rfl

end

/-! ### The sub-cases of T00, by their conditions -/

theorem subCase_of_nothing {acc : AccWord} {ovf : Bool} (entry : Byte) (hovf : ovf = false) (hacc : acc = 0#12) :
    subCase acc ovf entry = .boundaryIdle := by
  simp [subCase, hovf, hacc]

theorem subCase_of_overflow (acc : AccWord) {ovf : Bool} (entry : Byte) (hovf : ovf = true) :
    subCase acc ovf entry = .emitOverflow := by
  simp [subCase, hovf]

theorem subCase_of_invalid {acc : AccWord} {ovf : Bool} {entry : Byte} (hovf : ovf = false) (hacc : acc ≠ 0#12)
    (hvalid : entry[7] = false) : subCase acc ovf entry = .emitUnknown := by
  simp [subCase, hovf, hacc, hvalid]

theorem subCase_of_valid {acc : AccWord} {ovf : Bool} {entry : Byte} (hovf : ovf = false) (hacc : acc ≠ 0#12)
    (hvalid : entry[7] = true) : subCase acc ovf entry = .emitSymbol := by
  simp [subCase, hovf, hacc, hvalid]

/-! ### The row decoded is the row whose condition holds -/

/-- The conditions of R101 to R104 leave no boundary out: the sub-case found in R100's order is one that is selected. -/
theorem subCase_selected (acc : AccWord) (ovf : Bool) (entry : Byte) :
    (subCase acc ovf entry).selectedBy true false acc ovf entry = true := by
  cases hovf : ovf with
  | true => rw [subCase_of_overflow acc entry rfl]; rfl
  | false =>
    by_cases hacc : acc = 0#12
    · rw [subCase_of_nothing entry rfl hacc]
      simp [Instr.selectedBy, hacc]
    · cases hvalid : entry[7] with
      | false =>
        rw [subCase_of_invalid rfl hacc hvalid]
        simp [Instr.selectedBy, hacc, hvalid]
      | true =>
        rw [subCase_of_valid rfl hacc hvalid]
        simp [Instr.selectedBy, hacc, hvalid]

theorem decodeRow_selected (lwz e : Bool) (acc : AccWord) (ovf : Bool) (entry : Byte) :
    (decodeRow (.sel (selector lwz e)) acc ovf entry).selectedBy lwz e acc ovf entry = true := by
  cases lwz <;> cases e
  case true.true => rw [decodeRow_one_after_zero]; rfl
  case false.true => rw [decodeRow_one_after_one]; rfl
  case false.false => rw [decodeRow_zero_after_one]; rfl
  case true.false => rw [decodeRow_zero_after_zero]; exact subCase_selected acc ovf entry

/-- A row's condition fixes what is decoded, so no two rows hold at once. T00 is left out because it is selected beside its
sub-case, and RESET because the pin `rst` selects it. -/
theorem decodeRow_of_selected {i : Instr} {lwz e : Bool} {acc : AccWord} {ovf : Bool} {entry : Byte}
    (hsplit : i ≠ .t00) (hreset : ∀ c, i ≠ .reset c) (hsel : i.selectedBy lwz e acc ovf entry = true) :
    decodeRow (.sel (selector lwz e)) acc ovf entry = i := by
  cases i <;> simp only [Instr.selectedBy, Bool.and_eq_true, Bool.not_eq_true', beq_iff_eq, bne_iff_ne] at hsel
  case t00 => exact absurd rfl hsplit
  case reset c => exact absurd rfl (hreset c)
  case t01 =>
    obtain ⟨rfl, rfl⟩ := hsel
    exact decodeRow_one_after_zero acc ovf entry
  case t11 =>
    obtain ⟨rfl, rfl⟩ := hsel
    exact decodeRow_one_after_one acc ovf entry
  case t10 =>
    obtain ⟨rfl, rfl⟩ := hsel
    exact decodeRow_zero_after_one acc ovf entry
  case boundaryIdle =>
    obtain ⟨⟨rfl, rfl⟩, hovf, hacc⟩ := hsel
    exact subCase_of_nothing entry hovf hacc
  case emitOverflow =>
    obtain ⟨⟨rfl, rfl⟩, hovf⟩ := hsel
    exact subCase_of_overflow acc entry hovf
  case emitUnknown =>
    obtain ⟨⟨rfl, rfl⟩, ⟨hovf, hacc⟩, hvalid⟩ := hsel
    exact subCase_of_invalid hovf hacc hvalid
  case emitSymbol =>
    obtain ⟨⟨rfl, rfl⟩, ⟨hovf, hacc⟩, hvalid⟩ := hsel
    exact subCase_of_valid hovf hacc hvalid

/-- Settles O3: the row decoded is selected (`decodeRow_selected`), and no other row is (`decodeRow_of_selected`). -/
theorem selectorSelectsOneRow : Obligations.SelectorSelectsOneRow :=
  ⟨fun lwz e => ⟨selector_lwz_bit lwz e, selector_effective_bit lwz e⟩,
    decode_selector_one_after_zero, decode_selector_one_after_one,
    decode_selector_zero_after_one, decode_selector_zero_after_zero,
    fun _ lwz e acc ovf entry hsplit hreset =>
      ⟨fun hrow => hrow ▸ decodeRow_selected lwz e acc ovf entry, decodeRow_of_selected hsplit hreset⟩⟩

/-! ### The effective bit -/

/-- With `invert_q = 1` a unit acts as its complement does without inversion. -/
theorem decodeStep_inverted (lut : Memory) (d : DecodeState) (b : Bool) :
    decodeStep lut true d b = decodeStep lut false d (!b) := by
  rw [decodeStep_effective, effectiveBit_true]

/-- Settles O4: a decode step goes through `decodeStep_effective`, for either value of `invert_q`. -/
theorem transitionsReadEffectiveBit : Obligations.TransitionsReadEffectiveBit :=
  ⟨fun _ _ => rfl, fun lut inv d b => ⟨decodeStep_effective lut inv d b, decodeStep_inverted lut d b⟩⟩

end Sys2Proof
end

section
/-! PROOFS. The transitions: what T01, T11, T10 and T00 give and leave unchanged, how their register forms stand to the
source's forms, and what a stream and its complement have in common (spec/40_accumulation.md R82 to R90). -/

namespace Sys2Proof.Machine

/-! ### The register forms and the source forms -/

/-- One argument for T01 (`k = 4`) and T11 (`k = 2`): registers that multiply `acc` by `k` and add one modulo the domain, and
set `ovf` when that leaves the domain, keep representing an unbounded accumulator that does the same. An accumulator outside
the domain stays outside, so the bits that `acc` has lost do not matter to `ovf`. -/
theorem represents_append {d : DecodeState} {a : SourceState} {acc : AccWord} {ovf : Bool} {k : Nat} (hk : 1 ≤ k)
    (h : Represents d a) (hacc : acc.toNat = (d.acc.toNat * k + 1) % Config.domain)
    (hovf : ovf = true ↔ d.ovf = true ∨ Config.domain ≤ d.acc.toNat * k + 1) :
    Represents { lwz := false, acc := acc, ovf := ovf } { lwz := false, A := a.A * k + 1 } := by
  obtain ⟨-, hmod, hdom⟩ := h
  refine ⟨rfl, ?_, ?_⟩
  · simp only [hacc, hmod, Nat.add_mod, Nat.mul_mod, Nat.mod_mod]
  · have hgrow : a.A ≤ a.A * k := Nat.le_mul_of_pos_right _ hk
    change ovf = true ↔ Config.domain ≤ a.A * k + 1
    rw [hovf, hdom, hmod]
    by_cases hin : a.A < Config.domain
    · rw [Nat.mod_eq_of_lt hin]
      omega
    · omega

theorem represents_effectT01 {d : DecodeState} {a : SourceState} (h : Represents d a) :
    Represents (effectT01 d).1 { lwz := false, A := a.A * 4 + 1 } :=
  represents_append (by decide) h (append01_toNat d.acc) (ovfAfter01_iff d)

theorem represents_effectT11 {d : DecodeState} {a : SourceState} (h : Represents d a) :
    Represents (effectT11 d).1 { lwz := false, A := a.A * 2 + 1 } :=
  represents_append (by decide) h (append1_toNat d.acc) (ovfAfter1_iff d)

/-! ### The transitions as instructions -/

theorem exec_t01 (s : State) : exec .t01 s = .next { s with dec := (effectT01 s.dec).1 } := rfl

theorem exec_t11 (s : State) : exec .t11 s = .next { s with dec := (effectT11 s.dec).1 } := rfl

theorem exec_t10 (s : State) : exec .t10 s = .next { s with dec := (effectT10 s.dec).1 } := rfl

theorem exec_t00 (s : State) : exec .t00 s = .next (s.commit (DecodeState.start, boundary s.lut s.dec)) := rfl

/-- Settles O5: the frame is `exec_t01`, the source form `represents_effectT01`. -/
theorem oneAfterZeroResult : Obligations.OneAfterZeroResult := by
  refine fun s => ⟨exec_t01 s, fun t A ht hrep => ?_⟩
  rw [exec_t01] at ht
  cases ht
  exact represents_effectT01 hrep

/-- Settles O6: the frame is `exec_t11`, the source form `represents_effectT11`. -/
theorem oneAfterOneResult : Obligations.OneAfterOneResult := by
  refine fun s => ⟨exec_t11 s, fun t A ht hrep => ?_⟩
  rw [exec_t11] at ht
  cases ht
  exact represents_effectT11 hrep

/-- Settles O7: T10's effect is on `lwz` alone. -/
theorem zeroAfterOneResult : Obligations.ZeroAfterOneResult := exec_t10

/-! ### T00 by its sub-cases -/

/-- The symbol's byte is its index under a clear bit 7 (spec/41_emission.md R104). -/
theorem zext8_eq_append (v : BitVec 7) : zext8 v = 0#1 ++ v :=
  BitVec.setWidth_eq_append (by decide)

theorem symbolItem_eq (entry : Byte) :
    symbolItem entry = { byte := 0#1 ++ entry.extractLsb' 0 7, cause := Config.causeSym } := by
  rw [symbolItem, zext8_eq_append, lutSym]

theorem boundary_of_invalid {lut : Memory} {d : DecodeState} (hovf : d.ovf = false) (hacc : d.acc ≠ 0#12)
    (hvalid : (lut.read d.acc.toNat)[7] = false) : boundary lut d = some unknownItem := by
  have hentry : lutValid (lutAt lut d.acc) = false := hvalid
  rw [boundary_of_lookup lut hovf hacc, hentry]
  rfl

theorem boundary_of_valid {lut : Memory} {d : DecodeState} (hovf : d.ovf = false) (hacc : d.acc ≠ 0#12)
    (hvalid : (lut.read d.acc.toNat)[7] = true) :
    boundary lut d =
      some { byte := 0#1 ++ (lut.read d.acc.toNat).extractLsb' 0 7, cause := Config.causeSym } := by
  have hentry : lutValid (lutAt lut d.acc) = true := hvalid
  rw [boundary_of_lookup lut hovf hacc, if_pos hentry, symbolItem_eq]
  rfl

/-- Settles O8: each sub-case in R100's order has its boundary output, and writing it back with the cleared decode state
is all that T00 does. -/
theorem boundaryResult : Obligations.BoundaryResult := by
  intro s
  rw [exec_t00]
  split_ifs with hnothing hovf hvalid
  · rw [boundary_of_nothing s.lut hnothing.1 hnothing.2]
    rfl
  · rw [boundary_of_overflow s.lut hovf]
    rfl
  · rw [Bool.not_eq_true] at hovf
    rw [boundary_of_invalid hovf (fun hacc => hnothing ⟨hovf, hacc⟩) hvalid]
    rfl
  · rw [Bool.not_eq_true] at hovf
    rw [Bool.not_eq_false] at hvalid
    rw [boundary_of_valid hovf (fun hacc => hnothing ⟨hovf, hacc⟩) hvalid]
    rfl

/-! ### Growth between boundaries -/

theorem sourceStep_clears (lut : Memory) {inv : Bool} {a : SourceState} {b : Bool}
    (hlwz : a.lwz = true) (he : effectiveBit b inv = false) : (sourceStep lut inv a b).1.A = 0 := by
  simp [sourceStep, hlwz, he]

theorem decodeStep_clears (lut : Memory) {inv : Bool} {d : DecodeState} {b : Bool}
    (hlwz : d.lwz = true) (he : effectiveBit b inv = false) : (decodeStep lut inv d b).1 = DecodeState.start := by
  simp [decodeStep_eq, hlwz, he, effectT00]

/-- T01 and T11 append bits below those of `A`, and T10 keeps `A`. -/
theorem le_sourceStep (lut : Memory) {inv : Bool} {a : SourceState} {b : Bool}
    (h : a.lwz = false ∨ effectiveBit b inv = true) : a.A ≤ (sourceStep lut inv a b).1.A := by
  unfold sourceStep
  cases hlwz : a.lwz <;> cases he : effectiveBit b inv
  case false.false => exact Nat.le_refl a.A
  case false.true =>
    change a.A ≤ a.A * 2 + 1
    omega
  case true.true =>
    change a.A ≤ a.A * 4 + 1
    omega
  case true.false => simp [hlwz, he] at h

/-- T01 and T11 only set `ovf`, and T10 keeps it. -/
theorem decodeStep_keeps_ovf (lut : Memory) {inv : Bool} {d : DecodeState} {b : Bool}
    (h : d.lwz = false ∨ effectiveBit b inv = true) (hovf : d.ovf = true) : (decodeStep lut inv d b).1.ovf = true := by
  rw [decodeStep_eq]
  cases hlwz : d.lwz <;> cases he : effectiveBit b inv
  case false.false => exact hovf
  case false.true => exact (ovfAfter1_iff d).mpr (.inl hovf)
  case true.true => exact (ovfAfter01_iff d).mpr (.inl hovf)
  case true.false => simp [hlwz, he] at h

/-- Settles O36: a T00 clears both forms, and every other transition lets neither `A` nor `ovf` fall. -/
theorem accumulatorOnlyGrows : Obligations.AccumulatorOnlyGrows :=
  fun lut _ _ _ _ =>
    ⟨sourceStep_clears lut, le_sourceStep lut,
      fun hlwz he => by rw [decodeStep_clears lut hlwz he]; exact ⟨rfl, rfl⟩,
      decodeStep_keeps_ovf lut⟩

/-! ### Inversion -/

/-- Settles O49, by induction on the units: each step of the complement is the same step (`decodeStep_inverted`). -/
theorem inversionSymmetry : Obligations.InversionSymmetry := by
  intro lut d p
  induction p generalizing d with
  | nil => rfl
  | cons b p ih =>
    have hstep : decodeStep lut true d (!b) = decodeStep lut false d b := by
      rw [decodeStep_inverted, Bool.not_not]
    have hinv : invUnits (b :: p) = (!b) :: invUnits p := rfl
    rw [hinv, decodeUnits_cons, decodeUnits_cons, hstep, ih]

end Sys2Proof.Machine
end

section
/-! PROOFS. Accepted code tables, and the ROM built from one: the entry at each code is its symbol's
(spec/42_lookup_table.md R120, R122). -/

namespace Sys2Proof

/-! ### What an accepted table has -/

theorem CodeTable.accepted_iff (t : CodeTable) :
    t.Accepted ↔ t.length = Config.nSymbols ∧ (∀ c ∈ t, CodeTable.entryDefect c = none) ∧ t.Nodup := by
  unfold CodeTable.Accepted CodeTable.check
  by_cases hlen : t.length = Config.nSymbols
  · cases hfind : t.findSome? CodeTable.entryDefect with
    | some d =>
      obtain ⟨c, hc, hd⟩ := List.exists_of_findSome?_eq_some hfind
      have hbad : ¬ ∀ c ∈ t, CodeTable.entryDefect c = none := fun h => by simp [h c hc] at hd
      simp [hlen, hbad]
    | none =>
      have hentry : ∀ c ∈ t, CodeTable.entryDefect c = none := List.findSome?_eq_none_iff.mp hfind
      simpa [hlen] using fun _ => hentry
  · simp [hlen]

theorem CodeTable.entry_range {c : Nat} (h : CodeTable.entryDefect c = none) : c ≠ 0 ∧ c < Config.domain := by
  by_cases hout : c = 0 ∨ Config.domain ≤ c
  · simp [CodeTable.entryDefect, hout] at h
  · omega

theorem codeOf_eq_getElem (t : CodeTable) {s : Nat} (h : s < t.length) : codeOf t s = t[s] := by
  simp [codeOf, h]

theorem CodeTable.Accepted.codeOf_ne_zero {t : CodeTable} (ht : t.Accepted) {s : Nat} (hs : s < 128) :
    codeOf t s ≠ 0 := by
  obtain ⟨hlen, hentry, -⟩ := (CodeTable.accepted_iff t).mp ht
  have hs' : s < t.length := hlen ▸ hs
  rw [codeOf_eq_getElem t hs']
  exact (CodeTable.entry_range (hentry _ (List.getElem_mem hs'))).1

namespace Machine

/-! ### What the ROM of an accepted table reads as -/

theorem read_enterCodes_of_not_mem {t : CodeTable} {a : Nat} (h : a ∉ t) (s : Nat) (m : Memory) :
    (enterCodes t s m).read a = m.read a := by
  induction t generalizing s m with
  | nil => rfl
  | cons c t ih =>
    obtain ⟨hne, htail⟩ := not_or.mp (mt List.mem_cons.mpr h)
    exact (ih htail (s + 1) _).trans (read_write_other m _ hne)

/-- Each code's entry is written once: no later code of the table is equal to it. -/
theorem read_enterCodes_getElem {t : CodeTable} (hnodup : t.Nodup) (hdom : ∀ c ∈ t, c < Config.domain) (s : Nat)
    {m : Memory} (hm : m.wf) {i : Nat} (hi : i < t.length) : (enterCodes t s m).read t[i] = lutWord (s + i) := by
  induction t generalizing s m i with
  | nil => exact absurd hi (by simp)
  | cons c t ih =>
    obtain ⟨hfirst, hnodup'⟩ := List.nodup_cons.mp hnodup
    obtain ⟨hc, hdom'⟩ := List.forall_mem_cons.mp hdom
    cases i with
    | zero => exact (read_enterCodes_of_not_mem hfirst (s + 1) _).trans (read_write_same hm c _)
    | succ i =>
      have hrest := ih hnodup' hdom' (s + 1) (write_wf (v := lutWord s) hm hc) (Nat.lt_of_succ_lt_succ hi)
      rwa [Nat.add_right_comm] at hrest

theorem read_buildLut_codeOf {t : CodeTable} (ht : t.Accepted) {c : Nat} (hc : c < 128) :
    (buildLut t).read (codeOf t c) = lutWord c := by
  obtain ⟨hlen, hentry, hnodup⟩ := (CodeTable.accepted_iff t).mp ht
  have hc' : c < t.length := hlen ▸ hc
  have hdom : ∀ x ∈ t, x < Config.domain := fun x hx => (CodeTable.entry_range (hentry x hx)).2
  rw [codeOf_eq_getElem t hc', buildLut, read_enterCodes_getElem hnodup hdom 0 ⟨List.Pairwise.nil, by simp⟩ hc', Nat.zero_add]

end Machine
end Sys2Proof
end

section
/-! PROOFS. Emission at a boundary: T00 and its four sub-cases as instructions (spec/41_emission.md). -/

namespace Sys2Proof.Machine

/-! ### The sub-cases as instructions -/

theorem exec_boundaryIdle (s : State) : exec .boundaryIdle s = .next { s with dec := DecodeState.start } := rfl

theorem exec_emitSymbol (s : State) :
    exec .emitSymbol s = .next (s.commit (DecodeState.start, some (symbolItem (lutAt s.lut s.dec.acc)))) := rfl

/-- Every boundary instruction writes back the decode state `(1, 0, 0)`; they differ in the item alone. -/
theorem exec_boundary_row (s : State) {i : Instr}
    (hi : i ∈ [Instr.t00, .boundaryIdle, .emitOverflow, .emitUnknown, .emitSymbol]) :
    ∃ o, exec i s = .next (s.commit (DecodeState.start, o)) := by
  simp only [List.mem_cons, List.not_mem_nil, or_false] at hi
  obtain rfl | rfl | rfl | rfl | rfl := hi <;> exact ⟨_, rfl⟩

/-! ### T00 is the sub-case whose condition holds -/

section
variable {s : State}

theorem exec_t00_of_nothing (hovf : s.dec.ovf = false) (hacc : s.dec.acc = 0#12) :
    exec .t00 s = exec .boundaryIdle s := by
  rw [exec_t00, boundary_of_nothing s.lut hovf hacc]
  rfl

theorem exec_t00_of_overflow (hovf : s.dec.ovf = true) : exec .t00 s = exec .emitOverflow s := by
  rw [exec_t00, boundary_of_overflow s.lut hovf]
  rfl

theorem exec_t00_of_invalid (hovf : s.dec.ovf = false) (hacc : s.dec.acc ≠ 0#12)
    (hvalid : (s.lut.read s.dec.acc.toNat)[7] = false) : exec .t00 s = exec .emitUnknown s := by
  rw [exec_t00, boundary_of_invalid hovf hacc hvalid]
  rfl

theorem exec_t00_of_valid (hovf : s.dec.ovf = false) (hacc : s.dec.acc ≠ 0#12)
    (hvalid : (s.lut.read s.dec.acc.toNat)[7] = true) : exec .t00 s = exec .emitSymbol s := by
  rw [exec_t00, boundary_of_valid hovf hacc hvalid, exec_emitSymbol, symbolItem_eq]
  rfl

end

/-- Settles O9: in R100's order, the condition that selects a sub-case is the one under which T00 runs it. -/
theorem boundaryRunsItsSubCase : Obligations.BoundaryRunsItsSubCase := by
  intro s
  cases hovf : s.dec.ovf with
  | true => rw [subCase_of_overflow _ _ rfl, exec_t00_of_overflow hovf]
  | false =>
    by_cases hacc : s.dec.acc = 0#12
    · rw [subCase_of_nothing _ rfl hacc, exec_t00_of_nothing hovf hacc]
    · cases hvalid : (s.lut.read s.dec.acc.toNat)[7] with
      | false => rw [subCase_of_invalid rfl hacc hvalid, exec_t00_of_invalid hovf hacc hvalid]
      | true => rw [subCase_of_valid rfl hacc hvalid, exec_t00_of_valid hovf hacc hvalid]

/-- Settles O14: whatever item a boundary instruction places, the decode state it writes back is `(1, 0, 0)`. -/
theorem everyBoundaryEndsAtStart : Obligations.EveryBoundaryEndsAtStart := by
  intro s i hi
  obtain ⟨o, hexec⟩ := exec_boundary_row s hi
  exact ⟨_, hexec, commit_dec s _⟩

/-! ### Idle zeros -/

theorem exec_t00_of_start {s : State} (hstart : s.dec = DecodeState.start) : exec .t00 s = .next s := by
  rw [exec_t00_of_nothing (by rw [hstart, start_ovf]) (by rw [hstart, start_acc]), exec_boundaryIdle, ← hstart]

theorem decodeStep_start_zero (lut : Memory) :
    decodeStep lut false DecodeState.start false = (DecodeState.start, none) := by
  rw [decodeStep_of_t00 lut start_lwz, effectT00, boundary_of_nothing lut start_ovf start_acc]

/-- A run of zeros is a run of idle boundaries, by induction on its length. -/
theorem decodeUnits_start_idle (lut : Memory) (n : Nat) :
    decodeUnits lut false DecodeState.start (idleUnits n) = (DecodeState.start, []) := by
  induction n with
  | zero => rfl
  | succ n ih =>
    have hcons : idleUnits (n + 1) = false :: idleUnits n := List.replicate_succ
    rw [hcons, decodeUnits_cons, decodeStep_start_zero, ih]
    rfl

/-- Settles O10: the result of the row, a boundary from `(1, 0, 0)`, and a run of them. -/
theorem idleBoundaryMakesNothing : Obligations.IdleBoundaryMakesNothing :=
  ⟨exec_boundaryIdle, fun _ => exec_t00_of_start, decodeUnits_start_idle⟩

/-! ### Symbols of an accepted table -/

theorem exec_emitSymbol_of_lutWord {s : State} {c : Nat} (hc : c < 128) (hentry : s.lut.read s.dec.acc.toNat = lutWord c) :
    exec .emitSymbol s =
      .next (s.commit (DecodeState.start, some { byte := BitVec.ofNat 8 c, cause := Config.causeSym })) := by
  rw [exec_emitSymbol, lutAt, hentry, symbolItem_lutWord hc]

/-- The accumulated code of a symbol is not 0 and its ROM entry is valid, so T00 runs EMIT_SYMBOL. -/
theorem exec_t00_of_code {t : CodeTable} {s : State} {c : Nat} (ht : t.Accepted) (hlut : s.lut = buildLut t)
    (hc : c < 128) (hovf : s.dec.ovf = false) (hcode : s.dec.acc.toNat = codeOf t c) :
    exec .t00 s =
      .next (s.commit (DecodeState.start, some { byte := BitVec.ofNat 8 c, cause := Config.causeSym })) := by
  have hentry : s.lut.read s.dec.acc.toNat = lutWord c := by rw [hlut, hcode, read_buildLut_codeOf ht hc]
  have hvalid : (s.lut.read s.dec.acc.toNat)[7] = true := by
    rw [hentry]
    exact lutValid_lutWord c
  have hacc : s.dec.acc ≠ 0#12 := by
    intro hzero
    exact ht.codeOf_ne_zero hc (by rw [← hcode, hzero]; rfl)
  rw [exec_t00_of_valid hovf hacc hvalid, exec_emitSymbol_of_lutWord hc hentry]

/-- Settles O13: the result of the row, when T00 runs it, and that a symbol's code gives the symbol. -/
theorem symbolMakesItsIndex : Obligations.SymbolMakesItsIndex := by
  refine ⟨fun s => ?_, fun _ => exec_t00_of_valid, fun _ _ _ => exec_t00_of_code⟩
  rw [exec_emitSymbol, symbolItem_eq]
  rfl

end Sys2Proof.Machine
end

section
/-! PROOFS. The lookup ROM: what it holds at each index, that a run never changes it, and the lookup function with its
bound check (spec/42_lookup_table.md R122 to R124). -/

namespace Sys2Proof

/-- An index that is no symbol's code is no entry of the table. -/
theorem CodeTable.Accepted.not_mem_of_codeOf_ne {t : CodeTable} (ht : t.Accepted) {i : Nat}
    (h : ∀ s < 128, codeOf t s ≠ i) : i ∉ t := by
  intro hmem
  obtain ⟨hlen, -, -⟩ := (CodeTable.accepted_iff t).mp ht
  obtain ⟨s, hs, hi⟩ := List.mem_iff_getElem.mp hmem
  exact h s (hs.trans_eq hlen) ((codeOf_eq_getElem t hs).trans hi)

namespace Machine

/-! ### What the ROM holds -/

theorem read_buildLut_of_not_mem {t : CodeTable} {i : Nat} (h : i ∉ t) : (buildLut t).read i = 0x00#8 :=
  (read_enterCodes_of_not_mem h 0 []).trans (read_nil i)

/-- Settles O29: a code reads as its symbol's word, any other index as unlisted, and 0 is never a code. -/
theorem romInvertsCodeTable : Obligations.RomInvertsCodeTable := by
  refine fun t ht => ⟨?_, fun _ _ hother => read_buildLut_of_not_mem (ht.not_mem_of_codeOf_ne hother),
    read_buildLut_of_not_mem (ht.not_mem_of_codeOf_ne fun _ => ht.codeOf_ne_zero)⟩
  rintro _ - s hs rfl
  exact read_buildLut_codeOf ht hs

/-! ### What a run does to the ROM -/

theorem clockEdge_lut (p : Pins) (s : State) : ∃ t, clockEdge p s = .next t ∧ t.lut = s.lut := by
  obtain ⟨-, hedge⟩ | ⟨-, -, hedge⟩ | ⟨-, -, hedge⟩ := clockEdge_cases p s
  · exact ⟨_, hedge, constructed_lut s _⟩
  · exact ⟨_, hedge, (commit_lut _ _).trans (transfers_lut p s)⟩
  · exact ⟨_, hedge, transfers_lut p s⟩

theorem step_lut (s : State) : ∃ t, step s = .next t ∧ t.lut = s.lut := by
  obtain ⟨-, hstep⟩ | ⟨p, rest, -, hstep⟩ := step_cases s
  · exact ⟨s, hstep, rfl⟩
  · rw [hstep]
    exact clockEdge_lut p (s.withEdges rest)

theorem run_succ_of_step {s t : State} (h : step s = .next t) (k : Nat) :
    Host.Core.run Sys2Proof.core (k + 1) s = Host.Core.run Sys2Proof.core k t := by
  have hcore : Sys2Proof.core.step s = .next t := h
  simp only [Host.Core.run, hcore]

theorem run_lut {k : Nat} {s t : State} (h : Host.Core.run Sys2Proof.core k s = .next t) : t.lut = s.lut := by
  induction k generalizing s with
  | zero =>
    cases h
    rfl
  | succ k ih =>
    obtain ⟨u, hstep, hlut⟩ := step_lut s
    rw [run_succ_of_step hstep] at h
    exact (ih h).trans hlut

theorem powerUp_of_accepted {c : CodeTable} (hc : c.Accepted) (ps : List Pins) :
    State.powerUp c ps = .next { State.unreset ps with lut := buildLut c } := by
  obtain ⟨-, hnext⟩ | ⟨hnot, -⟩ := withTable_cases c (State.unreset ps)
  · exact hnext
  · exact absurd hc hnot

/-- Settles O30: the run clause by induction on the number of steps, from `step_lut`. -/
theorem romIsConstant : Obligations.RomIsConstant :=
  ⟨fun _ _ _ => run_lut, fun _ ps hc => ⟨_, powerUp_of_accepted hc ps, rfl⟩⟩

/-! ### The lookup function -/

section
variable {lut : Memory} {A : Nat}

theorem lookup_of_domain_le (hout : Config.domain ≤ A) : lookup lut A = .unknown := by
  rw [lookup, if_pos hout]

theorem lookup_of_lt_domain (hin : A < Config.domain) :
    lookup lut A = if lutValid (lut.read A) then .symbol (lutSym (lut.read A)) else .unknown := by
  cases hvalid : lutValid (lut.read A) <;> simp [lookup, Nat.not_le_of_lt hin, hvalid]

end

/-- While `ovf = 0` the register holds all of `A` (spec/10_state.md R27). -/
theorem Represents.of_not_ovf {d : DecodeState} {a : SourceState} (h : Represents d a) (hovf : d.ovf = false) :
    a.A < Config.domain ∧ d.acc.toNat = a.A := by
  obtain ⟨-, hmod, hdom⟩ := h
  have hin : a.A < Config.domain := by
    rw [hovf] at hdom
    exact Nat.lt_of_not_le fun hle => Bool.false_ne_true (hdom.mpr hle)
  exact ⟨hin, hmod.trans (Nat.mod_eq_of_lt hin)⟩

theorem Represents.ovf_eq_false {d : DecodeState} {a : SourceState} (h : Represents d a) (hin : a.A < Config.domain) :
    d.ovf = false := by
  obtain ⟨-, -, hdom⟩ := h
  exact Bool.eq_false_of_not_eq_true fun hovf => Nat.not_le_of_lt hin (hdom.mp hovf)

theorem Represents.acc_ne_zero {d : DecodeState} {a : SourceState} (h : Represents d a) (hovf : d.ovf = false)
    (hA : a.A ≠ 0) : d.acc ≠ 0#12 :=
  fun hzero => hA (by rw [← (h.of_not_ovf hovf).2, hzero]; rfl)

/-- Inside the domain the source looks up the entry that the register reads. -/
theorem Represents.lookup_eq {d : DecodeState} {a : SourceState} (lut : Memory) (h : Represents d a)
    (hovf : d.ovf = false) :
    lookup lut a.A = if lutValid (lutAt lut d.acc) then .symbol (lutSym (lutAt lut d.acc)) else .unknown := by
  obtain ⟨hin, hacc⟩ := h.of_not_ovf hovf
  rw [lookup_of_lt_domain hin, lutAt, hacc]

/-- Settles O35: with `ovf = 1` the bound check answers, else `A` is `acc` and the valid bit of its entry decides. -/
theorem lookupWithBoundCheck : Obligations.LookupWithBoundCheck := by
  refine fun lut d a hrep hA => ⟨fun hovf => ?_, fun hovf hvalid => ?_, fun hovf hvalid => ?_⟩
  · obtain ⟨-, -, hdom⟩ := hrep
    exact ⟨lookup_of_domain_le (hdom.mp hovf), boundary_of_overflow lut hovf⟩
  · exact ⟨(hrep.lookup_eq lut hovf).trans (if_neg (ne_true_of_eq_false hvalid)),
      boundary_of_invalid hovf (hrep.acc_ne_zero hovf hA) hvalid⟩
  · exact ⟨(hrep.lookup_eq lut hovf).trans (if_pos hvalid),
      boundary_of_valid hovf (hrep.acc_ne_zero hovf hA) hvalid⟩

end Machine
end Sys2Proof
end

section
/-! PROOFS. The round trip of a symbol: its pattern accumulates to its code, and the two zeros after it look the code up
(spec/42_lookup_table.md R125). -/

namespace Sys2Proof

/-! ### The last bit of a numeral -/

theorem bin_getLast? {v : Nat} (h : v ≠ 0) : (bin v).getLast? = some (v % 2 == 1) := by
  rw [bin_pos h, List.getLast?_concat]

/-- A numeral without `00` is one without its last bit too, and its last two bits are not both zero. -/
theorem hasDoubleZero_bin_half {v : Nat} (hv : v ≠ 0) (h : hasDoubleZero (bin v) = false) :
    hasDoubleZero (bin (v / 2)) = false ∧ (v / 2 % 2 = 1 ∨ v % 2 = 1) := by
  rw [bin_pos hv, hasDoubleZero_append] at h
  simp only [Bool.or_eq_false_iff] at h
  obtain ⟨⟨hhalf, -⟩, hmeet⟩ := h
  refine ⟨hhalf, ?_⟩
  by_cases hzero : v / 2 = 0
  · omega
  · rw [bin_getLast? hzero] at hmeet
    have hlast : v / 2 % 2 = 0 → v % 2 = 1 := by simpa using hmeet
    omega

/-! ### The code of an accepted table -/

theorem CodeTable.entry_pattern {c : Nat} (h : CodeTable.entryDefect c = none) :
    hasDoubleZero (bin c) = false ∧ (bin c).getLast? = some true := by
  obtain ⟨hne, hdom⟩ := CodeTable.entry_range h
  rw [CodeTable.entryDefect, if_neg (by omega)] at h
  split_ifs at h with hzeros hlast
  exact ⟨Bool.eq_false_of_not_eq_true hzeros, not_not.mp hlast⟩

theorem CodeTable.Accepted.codeOf_entry {t : CodeTable} (ht : t.Accepted) {s : Nat} (hs : s < 128) :
    CodeTable.entryDefect (codeOf t s) = none := by
  obtain ⟨hlen, hentry, -⟩ := (CodeTable.accepted_iff t).mp ht
  rw [codeOf_eq_getElem t (hlen ▸ hs)]
  exact hentry _ (List.getElem_mem _)

namespace Machine

/-! ### A pattern accumulates to its code -/

/-- The accumulator, in the source's unbounded form, after the numeral of `v` fed from the start: a last bit one stands in
`A` with the bits before it, a last bit zero is still pending in `lwz`. -/
def numeralSource (v : Nat) : SourceState :=
  if v % 2 = 1 then { lwz := false, A := v } else { lwz := true, A := v / 2 }

theorem numeralSource_odd {v : Nat} (h : v % 2 = 1) : numeralSource v = { lwz := false, A := v } := if_pos h

theorem numeralSource_even {v : Nat} (h : v % 2 = 0) : numeralSource v = { lwz := true, A := v / 2 } :=
  if_neg (by omega)

theorem represents_start_numeralSource : Represents DecodeState.start (numeralSource 0) :=
  ⟨rfl, rfl, by decide⟩

theorem represents_effectT10 {d : DecodeState} {a : SourceState} (h : Represents d a) :
    Represents (effectT10 d).1 { a with lwz := true } :=
  ⟨rfl, h.2⟩

/-- The last bit of a numeral is T11 or T10 after a one, and T01 after a pending zero: a second zero is what
`hasDoubleZero` excludes. -/
theorem decodeStep_numeral (lut : Memory) {d : DecodeState} {v : Nat} (hrep : Represents d (numeralSource (v / 2)))
    (hbits : v / 2 % 2 = 1 ∨ v % 2 = 1) :
    Represents (decodeStep lut false d (v % 2 == 1)).1 (numeralSource v) ∧
      (decodeStep lut false d (v % 2 == 1)).2 = none := by
  obtain hbefore | hbefore := Nat.mod_two_eq_zero_or_one (v / 2)
  · have hlast : v % 2 = 1 := by omega
    rw [numeralSource_even hbefore] at hrep
    rw [numeralSource_odd hlast, hlast, beq_self_eq_true, decodeStep_of_t01 lut hrep.1]
    have happend := represents_effectT01 hrep
    rw [show v / 2 / 2 * 4 + 1 = v by omega] at happend
    exact ⟨happend, rfl⟩
  · rw [numeralSource_odd hbefore] at hrep
    obtain hlast | hlast := Nat.mod_two_eq_zero_or_one v
    · rw [numeralSource_even hlast, hlast, beq_false_of_ne Nat.zero_ne_one, decodeStep_of_t10 lut hrep.1]
      exact ⟨represents_effectT10 hrep, rfl⟩
    · rw [numeralSource_odd hlast, hlast, beq_self_eq_true, decodeStep_of_t11 lut hrep.1]
      have happend := represents_effectT11 hrep
      rw [show v / 2 * 2 + 1 = v by omega] at happend
      exact ⟨happend, rfl⟩

/-- A numeral without `00` is accumulated without an item, by induction on its bits from the last one (R70). -/
theorem decodeUnits_bin (lut : Memory) {v : Nat} (h : hasDoubleZero (bin v) = false) :
    Represents (decodeUnits lut false DecodeState.start (bin v)).1 (numeralSource v) ∧
      (decodeUnits lut false DecodeState.start (bin v)).2 = [] := by
  induction v using Nat.strong_induction_on with
  | h v ih =>
    by_cases hv : v = 0
    · rw [hv]
      exact ⟨represents_start_numeralSource, rfl⟩
    · obtain ⟨hhalf, hbits⟩ := hasDoubleZero_bin_half hv h
      obtain ⟨hrep, hitems⟩ := ih (v / 2) (by omega) hhalf
      obtain ⟨hrep', hnone⟩ := decodeStep_numeral lut hrep hbits
      rw [bin_pos hv, decodeUnits_snoc, hitems, hnone]
      exact ⟨hrep', rfl⟩

/-! ### The two zeros after it -/

theorem decodeUnits_append (lut : Memory) (inv : Bool) (d : DecodeState) (u v : List Bool) :
    decodeUnits lut inv d (u ++ v) =
      ((decodeUnits lut inv (decodeUnits lut inv d u).1 v).1,
        (decodeUnits lut inv d u).2 ++ (decodeUnits lut inv (decodeUnits lut inv d u).1 v).2) :=
  runUnits_append _ d u v

/-- After a one, the first zero of the flush is pending and the second is the boundary, which does not read `lwz`. -/
theorem decodeUnits_flush (lut : Memory) {d : DecodeState} (hlwz : d.lwz = false) :
    decodeUnits lut false d flushUnits = (DecodeState.start, (boundary lut d).toList) := by
  rw [flushUnits, decodeUnits_cons, decodeStep_of_t10 lut hlwz, effectT10, decodeUnits_cons, decodeStep_of_t00 lut rfl]
  exact congrArg _ (List.append_nil _)

theorem boundary_of_code {t : CodeTable} {d : DecodeState} {s : Nat} (ht : t.Accepted) (hs : s < 128)
    (hovf : d.ovf = false) (hcode : d.acc.toNat = codeOf t s) :
    boundary (buildLut t) d = some { byte := BitVec.ofNat 8 s, cause := Config.causeSym } := by
  have hacc : d.acc ≠ 0#12 := fun hzero => ht.codeOf_ne_zero hs (by rw [← hcode, hzero]; rfl)
  rw [boundary_of_lookup _ hovf hacc, lutAt, hcode, read_buildLut_codeOf ht hs, if_pos (lutValid_lutWord s),
    symbolItem_lutWord hs]

/-! ### The round trip -/

/-- The pattern of a symbol leaves its code in `acc`, the last unit a one (R70, R120). -/
theorem decodeUnits_pattern (lut : Memory) {t : CodeTable} {s : Nat} (ht : t.Accepted) (hs : s < 128) :
    ∃ d, decodeUnits lut false DecodeState.start (pattern t s) = (d, []) ∧
      d.lwz = false ∧ d.ovf = false ∧ d.acc.toNat = codeOf t s := by
  have hentry := ht.codeOf_entry hs
  obtain ⟨hne, hdom⟩ := CodeTable.entry_range hentry
  obtain ⟨hzeros, hlast⟩ := CodeTable.entry_pattern hentry
  have hodd : codeOf t s % 2 = 1 := by simpa [bin_getLast? hne] using hlast
  obtain ⟨hrep, hitems⟩ := decodeUnits_bin lut hzeros
  rw [numeralSource_odd hodd] at hrep
  have hovf := hrep.ovf_eq_false hdom
  exact ⟨_, Prod.ext rfl hitems, hrep.1, hovf, (hrep.of_not_ovf hovf).2⟩

theorem decodeUnits_symUnits {t : CodeTable} {s : Nat} (ht : t.Accepted) (hs : s < 128) :
    decodeUnits (buildLut t) false DecodeState.start (symUnits t s) =
      (DecodeState.start, [{ byte := BitVec.ofNat 8 s, cause := Config.causeSym }]) := by
  obtain ⟨d, hpattern, hlwz, hovf, hcode⟩ := decodeUnits_pattern (buildLut t) ht hs
  rw [symUnits, decodeUnits_append, hpattern, decodeUnits_flush _ hlwz, boundary_of_code ht hs hovf hcode]
  rfl

/-- Settles O46: the plain round trip is `decodeUnits_symUnits`, and the inverted one is the same by `inversionSymmetry`. -/
theorem symbolRoundTrip : Obligations.SymbolRoundTrip := fun _ _ ht hs =>
  ⟨decodeUnits_symUnits ht hs, (inversionSymmetry _ _ _).trans (decodeUnits_symUnits ht hs)⟩

end Machine
end Sys2Proof
end

section
/-! PROOFS. The stream interface: what the transfers of an edge move, and the decode operation with its calls
(spec/43_stream_interface.md R143, R144, R149 to R151). -/

namespace Sys2Proof.Machine

/-! ### The transfers of an edge -/

theorem inFire_iff_inReady (p : Pins) (s : State) :
    inFire p s = true ↔ p.rst = false ∧ p.inValid = true ∧ inReady p s = true := by
  simp [inFire, and_assoc]

theorem outFire_iff_outValid (p : Pins) (s : State) :
    outFire p s = true ↔ p.rst = false ∧ outValid p s = true ∧ p.outReady = true := by
  simp [outFire, and_assoc]

theorem step_of_edges {s : State} {p : Pins} {rest : List Pins} (h : s.host.edges = p :: rest) :
    step s = clockEdge p (s.withEdges rest) := by
  simp only [step, nextEdge, h]

/-- Without a reset the host's records change by the transfers alone: a decode step leaves them. -/
theorem clockEdge_host {p : Pins} (hrst : p.rst = false) (s : State) :
    ∃ t, clockEdge p s = .next t ∧ t.host = (transfers p s).host := by
  obtain ⟨hreset, -⟩ | ⟨-, -, hedge⟩ | ⟨-, -, hedge⟩ := clockEdge_cases p s
  · exact absurd hreset (ne_true_of_eq_false hrst)
  · exact ⟨_, hedge, commit_host _ _⟩
  · exact ⟨_, hedge, rfl⟩

theorem clockEdge_of_not_inFire {p : Pins} {s : State} (hrst : p.rst = false) (hwait : inFire p s = false) :
    clockEdge p s = .next (transfers p s) := by
  obtain ⟨hreset, -⟩ | ⟨-, hfire, -⟩ | ⟨-, -, hedge⟩ := clockEdge_cases p s
  · exact absurd hreset (ne_true_of_eq_false hrst)
  · exact absurd hfire (ne_true_of_eq_false hwait)
  · exact hedge

theorem transfers_of_not_inFire {p : Pins} {s : State} (hwait : inFire p s = false) :
    transfers p s = if outFire p s then s.giveItem else s := by
  simp only [transfers, hwait, Bool.false_eq_true, if_false]

/-- A bit that is offered and not taken has no effect: neither handshake looks at `in_bit`. -/
theorem clockEdge_ignores_refused_bit {p : Pins} {s : State} (hrst : p.rst = false) (hwait : inFire p s = false)
    (b : Bool) : clockEdge { p with inBit := b } s = clockEdge p s := by
  have hwait' : inFire { p with inBit := b } s = false := hwait
  rw [clockEdge_of_not_inFire (p := { p with inBit := b }) hrst hwait', clockEdge_of_not_inFire hrst hwait,
    transfers_of_not_inFire hwait', transfers_of_not_inFire hwait]
  rfl

/-- Settles O22: the records of an edge are those of its `transfers`. -/
theorem transfersMoveOneEach : Obligations.TransfersMoveOneEach := by
  refine ⟨fun p s => ⟨inFire_iff_inReady p s, outFire_iff_outValid p s⟩, fun s t p rest hedges hrst hstep => ?_⟩
  rw [step_of_edges hedges] at hstep ⊢
  obtain ⟨t', hedge, hhost⟩ := clockEdge_host hrst (s.withEdges rest)
  obtain rfl : t' = t := Host.Outcome.next.inj (hedge.symm.trans hstep)
  rw [hhost]
  exact ⟨transfers_units p (s.withEdges rest), transfers_items p (s.withEdges rest), fun hwait b =>
    (step_of_edges rfl).trans (clockEdge_ignores_refused_bit (s := s.withEdges rest) hrst hwait b)⟩

/-! ### How many items a run of units can make -/

section
variable (lut : Memory) (inv : Bool)

theorem decodeUnits_items_length_le (d : DecodeState) (u : List Bool) :
    (decodeUnits lut inv d u).2.length ≤ u.length := by
  induction u generalizing d with
  | nil => exact Nat.le_refl 0
  | cons b u ih =>
    have hone : (decodeStep lut inv d b).2.toList.length ≤ 1 := Option.length_toList_le
    have hrest := ih (decodeStep lut inv d b).1
    rw [decodeUnits_cons, List.length_append, List.length_cons]
    omega

theorem decodeUnits_append_items_length_le (d : DecodeState) (u v : List Bool) :
    (decodeUnits lut inv d (u ++ v)).2.length ≤ (decodeUnits lut inv d u).2.length + v.length := by
  rw [decodeUnits_append, List.length_append]
  exact Nat.add_le_add_left (decodeUnits_items_length_le lut inv _ v) _

theorem decodeUnits_take_succ_items_length_le (d : DecodeState) (u : List Bool) (k : Nat) :
    (decodeUnits lut inv d (u.take (k + 1))).2.length ≤ (decodeUnits lut inv d (u.take k)).2.length + 1 := by
  rw [List.take_add_one]
  exact (decodeUnits_append_items_length_le lut inv d _ _).trans (Nat.add_le_add_left Option.length_toList_le _)

/-! ### One call -/

/-- The number `k` of units that a call with room for `cap` items takes from `u` when `made` items exist: at every unit
before the `k`-th there was room, and after it there is no unit or no room (R149). -/
structure CallStops (cap : Nat) (d : DecodeState) (u : List Bool) (made k : Nat) : Prop where
  le_length : k ≤ u.length
  room_before : ∀ j < k, made + (decodeUnits lut inv d (u.take j)).2.length < cap
  done_or_full : k = u.length ∨ cap ≤ made + (decodeUnits lut inv d (u.take k)).2.length

/-- What the loop of a call reports if it takes `k` units of `u` after `i` units and `items`. -/
def callResult (d : DecodeState) (u : List Bool) (i : Nat) (items : List Item) (k : Nat) : ChunkResult where
  state := (decodeUnits lut inv d (u.take k)).1
  items := items ++ (decodeUnits lut inv d (u.take k)).2
  consumed := i + k
  produced := (items ++ (decodeUnits lut inv d (u.take k)).2).length

variable {lut inv}

theorem callResult_zero (d : DecodeState) (u : List Bool) (i : Nat) (items : List Item) :
    callResult lut inv d u i items 0 = { state := d, items := items, consumed := i, produced := items.length } := by
  simp [callResult]

theorem callResult_cons_succ (d : DecodeState) (b : Bool) (u : List Bool) (i : Nat) (items : List Item) (k : Nat) :
    callResult lut inv d (b :: u) i items (k + 1) =
      callResult lut inv (decodeStep lut inv d b).1 u (i + 1) (items ++ (decodeStep lut inv d b).2.toList) k := by
  simp only [callResult, List.take_succ_cons, decodeUnits_cons, List.append_assoc, Nat.add_assoc, Nat.add_comm 1 k]

theorem CallStops.cons {cap : Nat} {d : DecodeState} {b : Bool} {u : List Bool} {made k : Nat} (hroom : made < cap)
    (h : CallStops lut inv cap (decodeStep lut inv d b).1 u (made + (decodeStep lut inv d b).2.toList.length) k) :
    CallStops lut inv cap d (b :: u) made (k + 1) where
  le_length := Nat.succ_le_succ h.le_length
  room_before
    | 0, _ => hroom
    | j + 1, hj => by
      have hbefore := h.room_before j (Nat.lt_of_succ_lt_succ hj)
      rwa [Nat.add_assoc, ← List.length_append] at hbefore
  done_or_full := by
    have hstop := h.done_or_full
    rw [Nat.add_assoc, ← List.length_append] at hstop
    exact hstop.imp_left (congrArg (· + 1))

/-- The loop of a call takes units until there is none left or no room, by induction on the units. -/
theorem decodeChunkLoop_stops (cap : Nat) (d : DecodeState) (u : List Bool) (i : Nat) (items : List Item) :
    ∃ k, decodeChunkLoop lut inv cap d u i items = callResult lut inv d u i items k ∧
      CallStops lut inv cap d u items.length k := by
  induction u generalizing d i items with
  | nil => exact ⟨0, (callResult_zero d [] i items).symm, Nat.le_refl 0, by simp, .inl rfl⟩
  | cons b u ih =>
    by_cases hroom : items.length < cap
    · obtain ⟨k, hloop, hstop⟩ :=
        ih (decodeStep lut inv d b).1 (i + 1) (items ++ (decodeStep lut inv d b).2.toList)
      rw [List.length_append] at hstop
      refine ⟨k + 1, ?_, hstop.cons hroom⟩
      rw [decodeChunkLoop, if_pos hroom, hloop, callResult_cons_succ]
    · refine ⟨0, ?_, Nat.zero_le _, by simp, .inr (Nat.le_of_not_lt hroom)⟩
      rw [decodeChunkLoop, if_neg hroom, callResult_zero]

variable (lut inv) in
theorem decodeChunk_stops (d : DecodeState) (u : List Bool) (cap : Nat) :
    ∃ k, decodeChunk lut inv d u cap = callResult lut inv d u 0 [] k ∧ CallStops lut inv cap d u 0 k :=
  decodeChunkLoop_stops cap d u 0 []

section
variable {cap : Nat} {d : DecodeState} {u : List Bool} {k : Nat}

/-- The last unit taken had room for an item and made at most one. -/
theorem CallStops.items_le (h : CallStops lut inv cap d u 0 k) : (decodeUnits lut inv d (u.take k)).2.length ≤ cap := by
  cases k with
  | zero => exact Nat.zero_le cap
  | succ k =>
    have hlast := decodeUnits_take_succ_items_length_le lut inv d u k
    have hroom := h.room_before k (Nat.lt_succ_self k)
    omega

theorem CallStops.eq_zero (h : CallStops lut inv 0 d u 0 k) : k = 0 :=
  Nat.eq_zero_of_not_pos fun hpos => Nat.not_lt_zero _ (h.room_before 0 hpos)

/-- Room for an item of every unit is never used up before the last unit. -/
theorem CallStops.eq_length (h : CallStops lut inv cap d u 0 k) (hcap : u.length ≤ cap) : k = u.length := by
  obtain hdone | hfull := h.done_or_full
  · exact hdone
  · have hmade := (decodeUnits_items_length_le lut inv d (u.take k)).trans (List.length_take_le k u)
    have hle := h.le_length
    omega

end

/-- Settles O54: each clause from the number of units that `decodeChunk_stops` gives. -/
theorem chunkStopsAtCapacity : Obligations.ChunkStopsAtCapacity := by
  intro lut inv d u cap
  obtain ⟨k, hcall, hstop⟩ := decodeChunk_stops lut inv d u cap
  have hitems := hstop.items_le
  simp only [hcall, callResult, List.nil_append, Nat.zero_add, true_and]
  refine ⟨hitems, hstop.le_length, hstop.done_or_full.imp_right fun hfull => ?_, fun j hj => ?_, ?_,
    hstop.eq_length⟩
  · omega
  · simpa using hstop.room_before j hj
  · rintro rfl
    exact hstop.eq_zero

/-! ### Calls one after another -/

/-- What the caller will have once the units not yet consumed are decoded: the final state, and all the items. -/
def CallerState.outcome (lut : Memory) (inv : Bool) (c : CallerState) : DecodeState × List Item :=
  ((decodeUnits lut inv c.state c.rest).1, c.items ++ (decodeUnits lut inv c.state c.rest).2)

theorem CallerState.outcome_of_rest_nil {c : CallerState} (h : c.rest = []) : c.outcome lut inv = (c.state, c.items) := by
  simp [CallerState.outcome, h]

/-- Decoding any number of the units not yet consumed leaves the outcome as it was. -/
theorem CallerState.outcome_advance (c : CallerState) (k : Nat) :
    CallerState.outcome lut inv
      { state := (decodeUnits lut inv c.state (c.rest.take k)).1
        items := c.items ++ (decodeUnits lut inv c.state (c.rest.take k)).2
        rest := c.rest.drop k } = c.outcome lut inv := by
  have hsplit := decodeUnits_append lut inv c.state (c.rest.take k) (c.rest.drop k)
  rw [List.take_append_drop] at hsplit
  simp only [CallerState.outcome, hsplit, List.append_assoc]

variable (lut inv) in
/-- Calls of any sizes and capacities keep the outcome, by induction on the calls. -/
theorem decodeCalls_outcome (c : CallerState) (calls : List (Nat × Nat)) :
    (decodeCalls lut inv c calls).outcome lut inv = c.outcome lut inv := by
  induction calls generalizing c with
  | nil => rfl
  | cons call calls ih =>
    obtain ⟨n, cap⟩ := call
    obtain ⟨k, hcall, hstop⟩ := decodeChunk_stops lut inv c.state (c.rest.take n) cap
    have htake : (c.rest.take n).take k = c.rest.take k := by
      rw [List.take_take, Nat.min_eq_left (hstop.le_length.trans (List.length_take_le n c.rest))]
    simp only [decodeCalls, hcall, callResult, htake, List.nil_append, Nat.zero_add]
    exact (ih _).trans (c.outcome_advance k)

end

/-- A call with room for an item of every unit decodes them all. -/
theorem decodeChunk_all (lut : Memory) (inv : Bool) (d : DecodeState) (u : List Bool) :
    ((decodeChunk lut inv d u u.length).state, (decodeChunk lut inv d u u.length).items) = decodeUnits lut inv d u := by
  obtain ⟨k, hcall, hstop⟩ := decodeChunk_stops lut inv d u u.length
  rw [hcall, hstop.eq_length (Nat.le_refl _), callResult, List.take_length]
  rfl

/-- Settles O55: the calls keep the outcome, which is at first that of one call and in the end what the caller holds. -/
theorem chunkBoundariesTransparent : Obligations.ChunkBoundariesTransparent := by
  intro lut inv d u calls hrest
  have houtcome := decodeCalls_outcome lut inv { state := d, items := [], rest := u } calls
  rw [CallerState.outcome_of_rest_nil hrest] at houtcome
  have hsame := Prod.mk.inj (houtcome.trans (decodeChunk_all lut inv d u).symm)
  exact ⟨hsame.2, hsame.1⟩

end Sys2Proof.Machine
end

section
/-! PROOFS. An edge at which no unit is taken (spec/60_exceptions.md R172). -/

namespace Sys2Proof.Machine

/-- The two causes of waiting that R172 names: no unit is offered, or the block is not ready for one. -/
theorem not_inFire_of_waiting {p : Pins} {s : State} (hwait : p.inValid = false ∨ inReady p s = false) :
    inFire p s = false := by
  refine Bool.eq_false_iff.2 fun hfire => ?_
  obtain ⟨-, hvalid, hready⟩ := (inFire_iff_inReady p s).1 hfire
  obtain hnone | hbusy := hwait
  · exact Bool.false_ne_true (hnone.symm.trans hvalid)
  · exact Bool.false_ne_true (hbusy.symm.trans hready)

/-- What is left of such an edge: the waiting item leaves, or nothing happens but that the edge is past. -/
theorem step_of_not_inFire {s : State} {p : Pins} {rest : List Pins} (hedges : s.host.edges = p :: rest)
    (hrst : p.rst = false) (hwait : inFire p s = false) :
    step s = .next (if outFire p s then (s.withEdges rest).giveItem else s.withEdges rest) := by
  have hwait' : inFire p (s.withEdges rest) = false := hwait
  rw [step_of_edges hedges, clockEdge_of_not_inFire hrst hwait', transfers_of_not_inFire hwait']
  rfl

/-- Settles O24: neither a leaving item nor a past edge touches the decode state or the units taken. -/
theorem waitingKeepsDecodeState : Obligations.WaitingKeepsDecodeState := by
  intro s p rest hedges hrst hwait
  have hstep := step_of_not_inFire hedges hrst (not_inFire_of_waiting hwait)
  cases hout : outFire p s with
  | true =>
    rw [if_pos hout] at hstep
    exact ⟨(s.withEdges rest).giveItem, hstep, rfl, rfl, fun _ => giveItem_valid _, nofun⟩
  | false =>
    rw [if_neg (ne_true_of_eq_false hout)] at hstep
    exact ⟨s.withEdges rest, hstep, withEdges_dec s rest, withEdges_units s rest, nofun, fun _ => rfl⟩

end Sys2Proof.Machine
end

section
/-! PROOFS. Reset, and the inversion flag between resets (spec/70_reset_and_hazards.md R190, R194). -/

namespace Sys2Proof.Machine

/-! ### Edges of reset -/

theorem no_transfer_of_rst {p : Pins} (hrst : p.rst = true) (s : State) :
    inReady p s = false ∧ outValid p s = false ∧ inFire p s = false ∧ outFire p s = false := by
  simp [← Bool.not_eq_true, inReady_iff, outValid_iff, inFire_iff, outFire_iff, hrst]

theorem step_of_rst (s : State) {p : Pins} (rest : List Pins) (hrst : p.rst = true) :
    step (s.withEdges (p :: rest)) = .next ((s.withEdges rest).constructed p.cfgInvert) := by
  rw [step_of_edges (withEdges_edges s (p :: rest))]
  obtain ⟨-, hedge⟩ | ⟨hlow, -⟩ | ⟨hlow, -⟩ := clockEdge_cases p (s.withEdges rest)
  · exact hedge
  · exact absurd hrst (ne_true_of_eq_false hlow)
  · exact absurd hrst (ne_true_of_eq_false hlow)

/-- A construction keeps nothing of an earlier one: of several resets only the last is seen afterwards. -/
theorem constructed_constructed (s : State) (c c' : Bool) : (s.constructed c).constructed c' = s.constructed c' := rfl

theorem constructed_withEdges (s : State) (c : Bool) (ps : List Pins) :
    (s.withEdges ps).constructed c = (s.constructed c).withEdges ps := rfl

theorem run_of_rst (s : State) {ps : List Pins} {p : Pins} (rest : List Pins) (hlast : p.rst = true)
    (hrst : ∀ q ∈ ps, q.rst = true) :
    Host.Core.run Sys2Proof.core (ps.length + 1) (s.withEdges (ps ++ p :: rest)) =
      .next ((s.withEdges rest).constructed p.cfgInvert) := by
  induction ps generalizing s with
  | nil => exact run_succ_of_step (step_of_rst s rest hlast) 0
  | cons q ps ih =>
    obtain ⟨hq, hps⟩ := List.forall_mem_cons.1 hrst
    have hstep : step (s.withEdges (q :: (ps ++ p :: rest))) =
        .next ((s.constructed q.cfgInvert).withEdges (ps ++ p :: rest)) := step_of_rst s _ hq
    calc Host.Core.run Sys2Proof.core ((q :: ps).length + 1) (s.withEdges (q :: ps ++ p :: rest))
        = Host.Core.run Sys2Proof.core (ps.length + 1) ((s.constructed q.cfgInvert).withEdges (ps ++ p :: rest)) :=
          run_succ_of_step hstep _
      _ = .next (((s.constructed q.cfgInvert).withEdges rest).constructed p.cfgInvert) := ih _ hps
      _ = .next ((s.withEdges rest).constructed p.cfgInvert) := by
          rw [← constructed_withEdges, constructed_constructed]

/-- Settles O16: the run is one construction, the last edge's, by induction on the edges before it. -/
theorem resetEdgesConstruct : Obligations.ResetEdgesConstruct :=
  ⟨fun _ s hrst => no_transfer_of_rst hrst s, fun s _ _ rest hlast hrst =>
    ⟨_, run_of_rst s rest hlast hrst, rfl, rfl, rfl, rfl, rfl, rfl, rfl⟩⟩

/-! ### Edges without reset -/

theorem clockEdge_of_inFire {p : Pins} {s : State} (hfire : inFire p s = true) :
    clockEdge p s = .next ((transfers p s).commit (decodeStep s.lut s.invertQ s.dec p.inBit)) := by
  obtain ⟨hreset, -⟩ | ⟨-, -, hedge⟩ | ⟨-, hwait, -⟩ := clockEdge_cases p s
  · exact absurd ((inFire_iff p s).1 hfire).1 (ne_false_of_eq_true hreset)
  · exact hedge
  · exact absurd hfire (ne_true_of_eq_false hwait)

/-- Only a reset looks at the pin `cfg_invert`: neither the transfers nor the decode step take it. -/
theorem clockEdge_ignores_cfgInvert {p : Pins} (hrst : p.rst = false) (s : State) (c : Bool) :
    clockEdge { p with cfgInvert := c } s = clockEdge p s := by
  cases hfire : inFire p s with
  | true =>
    have hfire' : inFire { p with cfgInvert := c } s = true := hfire
    rw [clockEdge_of_inFire hfire', clockEdge_of_inFire hfire]
    rfl
  | false =>
    have hwait' : inFire { p with cfgInvert := c } s = false := hfire
    rw [clockEdge_of_not_inFire (p := { p with cfgInvert := c }) hrst hwait', clockEdge_of_not_inFire hrst hfire]
    rfl

theorem clockEdge_invertQ {p : Pins} (hrst : p.rst = false) (s : State) :
    ∃ t, clockEdge p s = .next t ∧ t.invertQ = s.invertQ := by
  obtain ⟨hreset, -⟩ | ⟨-, -, hedge⟩ | ⟨-, -, hedge⟩ := clockEdge_cases p s
  · exact absurd hreset (ne_true_of_eq_false hrst)
  · exact ⟨_, hedge, (commit_invertQ _ _).trans (transfers_invertQ p s)⟩
  · exact ⟨_, hedge, transfers_invertQ p s⟩

/-- Settles O43: an edge without reset neither reads `cfg_invert` nor writes `invert_q`; a reset edge constructs. -/
theorem inversionFixedBetweenResets : Obligations.InversionFixedBetweenResets := fun s _ rest =>
  ⟨fun hrst c => clockEdge_ignores_cfgInvert hrst (s.withEdges rest) c,
    fun hrst => clockEdge_invertQ hrst (s.withEdges rest),
    fun hrst => ⟨_, step_of_rst s rest hrst, rfl, rfl⟩⟩

end Sys2Proof.Machine
end

section
/-! PROOFS. Encoding: decode and encode agree, for one instruction and for sequences of bytes (spec/30_encoding.md R62). -/

namespace Sys2Proof

open Machine

/-! ### One instruction -/

/-- The code alone gives back a whole row; of a sub-case it gives T00 (log 6). -/
theorem decode_encode (i : Instr) : decode (encode i) = if i.isWhole then i else .t00 := by
  cases i <;> rfl

theorem encode_decodeSel (v : Sel) : encode (decodeSel v) = .sel v := by
  revert v
  decide

theorem isWhole_decodeSel (v : Sel) : (decodeSel v).isWhole = true := by
  revert v
  decide

/-- What selects a row of SEL2 fixes the selector that the row is encoded as. -/
theorem encode_of_selected {i : Instr} {lwz e : Bool} {acc : AccWord} {ovf : Bool} {entry : Byte}
    (hreset : ∀ c, i ≠ .reset c) (hsel : i.selectedBy lwz e acc ovf entry = true) :
    encode i = .sel (selector lwz e) := by
  cases i <;> simp only [Instr.selectedBy, Bool.and_eq_true, Bool.not_eq_true'] at hsel
  case reset c => exact absurd rfl (hreset c)
  case t01 | t11 | t10 | t00 =>
    obtain ⟨rfl, rfl⟩ := hsel
    rfl
  case boundaryIdle | emitOverflow | emitUnknown | emitSymbol =>
    obtain ⟨⟨rfl, rfl⟩, -⟩ := hsel
    rfl

theorem decodeRow_encode_of_selected {i : Instr} {lwz e : Bool} {acc : AccWord} {ovf : Bool} {entry : Byte}
    (hsplit : i ≠ .t00) (hsel : i.selectedBy lwz e acc ovf entry = true) :
    decodeRow (encode i) acc ovf entry = i := by
  by_cases hreset : ∃ c, i = .reset c
  · obtain ⟨c, rfl⟩ := hreset
    rfl
  · have hreset' := not_exists.mp hreset
    rw [encode_of_selected hreset' hsel]
    exact decodeRow_of_selected hsplit hreset' hsel

/-! ### Bytes -/

/-- A selector in the low bits of a byte is a number below 4, and comes back from it. -/
theorem sel_setWidth (v : Sel) : (v.setWidth 8).toNat < 4 ∧ (v.setWidth 8).setWidth 2 = v := by
  revert v
  decide

theorem setWidth_sel_of_lt {b : Byte} (h : b.toNat < 4) : (b.setWidth 2).setWidth 8 = b := by
  apply BitVec.eq_of_toNat_eq
  simp only [BitVec.toNat_setWidth]
  omega

theorem encodeBytes_decodeSel (v : Sel) : encodeBytes (decodeSel v) = [v.setWidth 8] := by
  rw [encodeBytes, encode_decodeSel]

theorem decodeBytes_of_lt {b : Byte} (h : b.toNat < 4) (rest : List Byte) :
    decodeBytes (b :: rest) = .ok (decodeSel (b.setWidth 2), rest) :=
  if_pos h

theorem decodeBytes_of_sel (v : Sel) (rest : List Byte) :
    decodeBytes (v.setWidth 8 :: rest) = .ok (decodeSel v, rest) := by
  obtain ⟨hlt, hback⟩ := sel_setWidth v
  rw [decodeBytes_of_lt hlt, hback]

theorem decodeBytes_encodeBytes {i : Instr} {v : Sel} (h : encode i = .sel v) (rest : List Byte) :
    decodeBytes (encodeBytes i ++ rest) = .ok (if i.isWhole then i else .t00, rest) := by
  have hdec : decodeSel v = if i.isWhole then i else .t00 := by rw [← decode_encode, h, decode]
  rw [← hdec, encodeBytes, h]
  exact decodeBytes_of_sel v rest

/-! ### Sequences -/

/-- A sequence decodes exactly when its first byte is a selector and the rest decodes. -/
theorem decodeAll_cons_eq_ok_iff {b : Byte} {bs : List Byte} {is : List Instr} :
    decodeAll (b :: bs) = .ok is ↔
      b.toNat < 4 ∧ ∃ tail, decodeAll bs = .ok tail ∧ is = decodeSel (b.setWidth 2) :: tail := by
  by_cases hb : b.toNat < 4
  · cases htail : decodeAll bs with
    | error r => simp [decodeAll, decodeBytes, hb, htail]
    | ok tail => simp [decodeAll, decodeBytes, hb, htail, eq_comm]
  · simp [decodeAll, decodeBytes, hb]

/-- A whole row with a word is the row of its selector. -/
theorem eq_decodeSel_of_isWhole {i : Instr} (hwhole : i.isWhole = true) (hword : encodeBytes i ≠ []) :
    ∃ v, i = decodeSel v := by
  have hback := decode_encode i
  rw [if_pos hwhole] at hback
  cases hcode : encode i with
  | ctrl c => exact absurd (by rw [encodeBytes, hcode]) hword
  | sel v => exact ⟨v, by rw [← hback, hcode, decode]⟩

theorem decodeAll_encodeBytes {is : List Instr} (h : ∀ i ∈ is, i.isWhole = true ∧ encodeBytes i ≠ []) :
    decodeAll (is.flatMap encodeBytes) = .ok is := by
  induction is with
  | nil => rfl
  | cons i is ih =>
    obtain ⟨⟨hwhole, hword⟩, htail⟩ := List.forall_mem_cons.mp h
    obtain ⟨v, rfl⟩ := eq_decodeSel_of_isWhole hwhole hword
    obtain ⟨hlt, hback⟩ := sel_setWidth v
    rw [List.flatMap_cons, encodeBytes_decodeSel]
    exact decodeAll_cons_eq_ok_iff.mpr ⟨hlt, is, ih htail, by rw [hback]⟩

/-- The other direction, by induction on the bytes: what decodes is the encoding of what it decodes to. -/
theorem encodeBytes_decodeAll {bs : List Byte} {is : List Instr} (h : decodeAll bs = .ok is) :
    is.flatMap encodeBytes = bs ∧ (∀ b ∈ bs, b.toNat < 4) ∧ ∀ i ∈ is, i.isWhole = true := by
  induction bs generalizing is with
  | nil =>
    cases h
    exact ⟨rfl, by simp, by simp⟩
  | cons b bs ih =>
    obtain ⟨hlt, tail, htail, rfl⟩ := decodeAll_cons_eq_ok_iff.mp h
    obtain ⟨hbytes, hsmall, hwhole⟩ := ih htail
    refine ⟨?_, List.forall_mem_cons.mpr ⟨hlt, hsmall⟩, List.forall_mem_cons.mpr ⟨isWhole_decodeSel _, hwhole⟩⟩
    rw [List.flatMap_cons, encodeBytes_decodeSel, setWidth_sel_of_lt hlt, hbytes]
    rfl

/-- Settles O2: one instruction by `decode_encode` and `decodeRow_encode_of_selected`, sequences by induction in both
directions. -/
theorem decodeEncodeAgree : Obligations.DecodeEncodeAgree := by
  refine ⟨fun i lwz e acc ovf entry hsel => ⟨fun hwhole => ?_, fun hsplit => ?_, fun v hcode => ⟨?_, ?_⟩⟩,
    fun _ => decodeAll_encodeBytes, fun _ _ => encodeBytes_decodeAll⟩
  · rw [decode_encode, if_pos hwhole]
  · exact decodeRow_encode_of_selected hsplit hsel
  · have hreset : ∀ c, i ≠ .reset c := by
      rintro c rfl
      exact Code.noConfusion hcode
    exact Code.sel.inj (hcode.symm.trans (encode_of_selected hreset hsel))
  · exact decodeBytes_encodeBytes hcode

/-! ### The words of the opcode table -/

theorem decodeTableWord_of_lt {w : Nat} (h : w < 4) :
    decodeTableWord 8 w = some (decode (.sel (selector (w.testBit 1) (w.testBit 0)))) := by
  revert w
  decide

/-- Settles O1: each selector word is decoded bit by bit, RESET by its pin, and 4 is the first number that is no selector. -/
theorem writtenWordsDecode : Obligations.WrittenWordsDecode :=
  ⟨decodeTableWord_of_lt (by decide), decodeTableWord_of_lt (by decide), decodeTableWord_of_lt (by decide),
    decodeTableWord_of_lt (by decide), rfl, rfl, by decide⟩

end Sys2Proof
end

section
/-! PROOFS. The register form and the source's unbounded form: the one simulates the other, and the shape that the source's
accumulator keeps is the shape of the registers and of every wrapping accumulator (spec/10_state.md R27, R28,
spec/40_accumulation.md R87). -/

namespace Sys2Proof

/-! ### The low bits of a number -/

/-- The low `n` binary digits of `v`, most significant first, zeros kept. -/
def lowBits : Nat → Nat → List Bool
  | 0, _ => []
  | n + 1, v => lowBits n (v / 2) ++ [v % 2 == 1]

theorem lowBits_succ (n v : Nat) : lowBits (n + 1) v = lowBits n (v / 2) ++ [v % 2 == 1] := rfl

theorem lowBits_eq_map_testBit (n v : Nat) :
    lowBits n v = (List.range n).map fun i => v.testBit (n - 1 - i) := by
  induction n generalizing v with
  | zero => rfl
  | succ n ih =>
    have hlast : v.testBit 0 = (v % 2 == 1) := by simp [Nat.testBit_zero, beq_eq_decide]
    have hinit : ∀ i ∈ List.range n, (v / 2).testBit (n - 1 - i) = v.testBit (n + 1 - 1 - i) := by
      intro i hi
      have hi' := List.mem_range.mp hi
      rw [Nat.testBit_div_two, show n - 1 - i + 1 = n + 1 - 1 - i by omega]
    rw [lowBits_succ, ih, List.range_succ, List.map_append, List.map_congr_left hinit, List.map_singleton,
      Nat.add_sub_cancel, Nat.sub_self, hlast]

/-- One digit more stands in front. -/
theorem lowBits_succ_eq_cons (n v : Nat) : lowBits (n + 1) v = v.testBit n :: lowBits n v := by
  induction n generalizing v with
  | zero => simp [lowBits, Nat.testBit_zero, beq_eq_decide]
  | succ n ih => rw [lowBits_succ, ih, Nat.testBit_div_two, List.cons_append, ← lowBits_succ]

/-- The low digits do not see what is above them. -/
theorem lowBits_mod_two_pow (n v : Nat) : lowBits n (v % 2 ^ n) = lowBits n v := by
  rw [lowBits_eq_map_testBit, lowBits_eq_map_testBit]
  refine List.map_congr_left fun i hi => ?_
  have hi' := List.mem_range.mp hi
  rw [Nat.testBit_mod_two_pow, decide_eq_true (by omega), Bool.true_and]

/-- The numeral of a number of at least `n` digits ends in its low `n` digits. -/
theorem bin_eq_append_lowBits {n v : Nat} (h : 2 ^ n ≤ 2 * v + 1) : ∃ u, bin v = u ++ lowBits n v := by
  induction n generalizing v with
  | zero => exact ⟨bin v, (List.append_nil _).symm⟩
  | succ n ih =>
    have hpow : 0 < 2 ^ n := Nat.two_pow_pos n
    rw [Nat.pow_succ] at h
    obtain ⟨u, hu⟩ := ih (v := v / 2) (by omega)
    exact ⟨u, by rw [bin_pos (by omega), hu, lowBits_succ, List.append_assoc]⟩

/-- A leading one in front of `n` digits is `2 ^ n` more. -/
theorem bin_two_pow_add {n v : Nat} (h : v < 2 ^ n) : bin (2 ^ n + v) = true :: lowBits n v := by
  induction n generalizing v with
  | zero =>
    obtain rfl : v = 0 := by simpa using h
    rfl
  | succ n ih =>
    rw [Nat.pow_succ] at h ⊢
    rw [bin_pos (by omega), show (2 ^ n * 2 + v) / 2 = 2 ^ n + v / 2 by omega, ih (by omega), lowBits_succ,
      show (2 ^ n * 2 + v) % 2 = v % 2 by omega, List.cons_append]

theorem bin_head? {v : Nat} (h : v ≠ 0) : (bin v).head? = some true := by
  induction v using Nat.strong_induction_on with
  | h v ih =>
    by_cases hhalf : v / 2 = 0
    · obtain rfl : v = 1 := by omega
      rfl
    · rw [bin_pos h, List.head?_append, ih (v / 2) (by omega) hhalf]
      rfl

theorem hasDoubleZero_of_append_right {u v : List Bool} (h : hasDoubleZero (u ++ v) = false) : hasDoubleZero v = false := by
  rw [hasDoubleZero_append] at h
  simp only [Bool.or_eq_false_iff] at h
  obtain ⟨⟨-, hright⟩, -⟩ := h
  exact hright

namespace Machine

theorem bit0_iff (a : AccWord) : a[0] = true ↔ a.toNat % 2 = 1 := by
  rw [← BitVec.getLsbD_eq_getElem, BitVec.getLsbD, Nat.testBit_zero, decide_eq_true_eq]

theorem accString_eq_lowBits (acc : AccWord) : accString acc = lowBits 12 acc.toNat :=
  (lowBits_eq_map_testBit 12 acc.toNat).symm

/-! ### The source's accumulator -/

/-- The source's state between steps: nothing accumulated, or an odd number whose numeral has no `00`. -/
def SourceState.Clean (a : SourceState) : Prop :=
  (a.lwz = true ∧ a.A = 0) ∨ (a.A % 2 = 1 ∧ hasDoubleZero (bin a.A) = false)

theorem SourceState.clean_start : SourceState.start.Clean := .inl ⟨rfl, rfl⟩

/-- `01` goes behind a numeral that is empty or ends in a one. -/
theorem hasDoubleZero_bin_append01 {A : Nat} (h : A = 0 ∨ (A % 2 = 1 ∧ hasDoubleZero (bin A) = false)) :
    hasDoubleZero (bin (A * 4 + 1)) = false := by
  obtain rfl | ⟨hodd, hzeros⟩ := h
  · rfl
  · rw [show A * 4 + 1 = A * 2 * 2 + 1 by omega, bin_two_mul_add_one, hasDoubleZero_append_true,
      bin_two_mul (by omega), hasDoubleZero_append, hzeros, bin_getLast? (by omega), hodd]
    rfl

theorem SourceState.clean_sourceStep (lut : Memory) (inv : Bool) {a : SourceState} (h : a.Clean) (b : Bool) :
    (sourceStep lut inv a b).1.Clean := by
  unfold sourceStep
  cases hlwz : a.lwz <;> cases effectiveBit b inv
  case true.true =>
    exact .inr ⟨by simp only; omega, hasDoubleZero_bin_append01 (h.imp_left And.right)⟩
  case true.false => exact .inl ⟨rfl, rfl⟩
  all_goals obtain ⟨hzero, -⟩ | ⟨hodd, hzeros⟩ := h
  case false.false.inr => exact .inr ⟨hodd, hzeros⟩
  case false.true.inr =>
    exact .inr ⟨by simp only; omega, by rw [bin_two_mul_add_one, hasDoubleZero_append_true, hzeros]⟩
  all_goals exact absurd (hlwz.symm.trans hzero) Bool.false_ne_true

/-! ### The shape of the registers is the shape of the accumulator they represent -/

theorem DecodeState.shaped_start : DecodeState.start.Shaped :=
  ⟨nofun, .inl ⟨rfl, rfl⟩, fun _ hne => absurd rfl hne, nofun⟩

/-- With something accumulated the shape is a last bit one and no `00`: in the numeral, or in the 12 bits once it has
outgrown them. -/
theorem DecodeState.shaped_of_odd {d : DecodeState} (hodd : d.acc.toNat % 2 = 1)
    (hzeros : hasDoubleZero (if d.ovf then lowBits 12 d.acc.toNat else bin d.acc.toNat) = false) : d.Shaped := by
  have hne : d.acc.toNat ≠ 0 := by omega
  refine ⟨fun _ => .inl fun hz => hne (by rw [hz]; rfl), .inr ((bit0_iff _).mpr hodd), fun hovf _ => ?_, fun hovf => ?_⟩
  · rw [hovf, if_neg Bool.false_ne_true] at hzeros
    exact ⟨bin_head? hne, by rw [bin_getLast? hne, hodd]; rfl, hzeros⟩
  · rw [hovf, if_pos rfl] at hzeros
    rw [accString_eq_lowBits]
    exact ⟨hzeros, by rw [lowBits_succ, List.getLast?_concat, hodd]; rfl⟩

/-- Inside the domain the registers are determined by what they represent. -/
theorem Represents.eq_of_lt {d : DecodeState} {a : SourceState} (h : Represents d a) (hin : a.A < Config.domain) :
    d = { lwz := a.lwz, acc := BitVec.ofNat 12 a.A, ovf := false } := by
  have hovf := h.ovf_eq_false hin
  obtain ⟨-, hA⟩ := h.of_not_ovf hovf
  have hacc : d.acc = BitVec.ofNat 12 a.A := by rw [← hA, BitVec.ofNat_toNat, BitVec.setWidth_eq]
  rw [← h.1, ← hacc, ← hovf]

theorem DecodeState.shaped_of_represents {d : DecodeState} {a : SourceState} (hrep : Represents d a) (hclean : a.Clean) :
    d.Shaped := by
  obtain ⟨hlwz, hzero⟩ | ⟨hodd, hzeros⟩ := hclean
  · have hstart : d = DecodeState.start := by
      rw [hrep.eq_of_lt (by rw [hzero]; decide), hlwz, hzero]
      rfl
    exact hstart ▸ DecodeState.shaped_start
  · have ⟨_, hlow, hdom⟩ := hrep
    have hmod : d.acc.toNat = a.A % 2 ^ 12 := hlow
    refine DecodeState.shaped_of_odd (by omega) ?_
    split_ifs with hovf
    · have hout : 4096 ≤ a.A := hdom.mp hovf
      obtain ⟨u, hu⟩ := bin_eq_append_lowBits (n := 12) (v := a.A) (by omega)
      rw [hu] at hzeros
      rw [hmod, lowBits_mod_two_pow]
      exact hasDoubleZero_of_append_right hzeros
    · rwa [(hrep.of_not_ovf (Bool.eq_false_of_not_eq_true hovf)).2]

/-- Registers of that shape represent some accumulator of that shape: `acc` itself, or `acc` under a leading one. -/
theorem DecodeState.Shaped.exists_represents {d : DecodeState} (h : d.Shaped) : ∃ a, Represents d a ∧ a.Clean := by
  obtain ⟨hone, hbit, hin, hout⟩ := h
  have hlt : d.acc.toNat < Config.domain := d.acc.isLt
  cases hovf : d.ovf with
  | false =>
    refine ⟨{ lwz := d.lwz, A := d.acc.toNat }, ⟨rfl, (Nat.mod_eq_of_lt hlt).symm, ?_⟩, ?_⟩
    · simp [hovf, hlt]
    · by_cases hacc : d.acc = 0#12
      · refine .inl ⟨Bool.eq_true_of_not_eq_false fun hlwz => ?_, by rw [hacc]; rfl⟩
        exact (hone hlwz).elim (fun hne => hne hacc) (ne_true_of_eq_false hovf)
      · obtain ⟨-, -, hzeros⟩ := hin hovf hacc
        exact .inr ⟨(bit0_iff _).mp (hbit.resolve_left fun hz => hacc hz.1), hzeros⟩
  | true =>
    obtain ⟨hzeros, -⟩ := hout hovf
    have hodd := (bit0_iff _).mp (hbit.resolve_left fun hz => ne_true_of_eq_false hz.2 hovf)
    have hbin : bin (2 ^ 12 + d.acc.toNat) = true :: lowBits 12 d.acc.toNat := bin_two_pow_add hlt
    refine ⟨{ lwz := d.lwz, A := 2 ^ 12 + d.acc.toNat }, ⟨rfl, ?_, ?_⟩, .inr ⟨by simp only; omega, ?_⟩⟩
    · exact ((Nat.add_mod_left Config.domain _).trans (Nat.mod_eq_of_lt hlt)).symm
    · exact iff_of_true hovf (Nat.le_add_right _ _)
    · rw [hbin, hasDoubleZero_cons, ← accString_eq_lowBits, hzeros]
      rfl

/-! ### The boundary of both forms -/

/-- R27's first question. -/
theorem Represents.A_eq_zero_iff {d : DecodeState} {a : SourceState} (h : Represents d a) :
    a.A = 0 ↔ d.ovf = false ∧ d.acc = 0#12 := by
  refine ⟨fun hzero => ?_, fun ⟨hovf, hacc⟩ => ?_⟩
  · have hovf := h.ovf_eq_false (by rw [hzero]; decide)
    exact ⟨hovf, BitVec.eq_of_toNat_eq ((h.of_not_ovf hovf).2.trans hzero)⟩
  · rw [← (h.of_not_ovf hovf).2, hacc]
    rfl

theorem Represents.boundary_eq {d : DecodeState} {a : SourceState} (lut : Memory) (h : Represents d a) :
    boundary lut d = sourceBoundary lut a.A := by
  unfold sourceBoundary
  split_ifs with hzero hout
  · obtain ⟨hovf, hacc⟩ := h.A_eq_zero_iff.mp hzero
    exact boundary_of_nothing lut hovf hacc
  · obtain ⟨-, -, hdom⟩ := h
    exact boundary_of_overflow lut (hdom.mpr hout)
  · have hovf := h.ovf_eq_false (Nat.lt_of_not_le hout)
    rw [h.lookup_eq lut hovf, boundary_of_lookup lut hovf (h.acc_ne_zero hovf hzero)]
    cases lutValid (lutAt lut d.acc) <;> rfl

/-- Settles O33: while `ovf = 0` the register is `A`, and with `ovf = 1` only its low 12 bits are left and not needed. -/
theorem registerPairAnswersForSource : Obligations.RegisterPairAnswersForSource := by
  intro lut d a hrep
  have ⟨_, hmod, hdom⟩ := hrep
  refine ⟨fun hovf => ?_, fun hovf => ⟨hdom.mp hovf, hmod⟩, hrep.A_eq_zero_iff, hdom.symm, hrep.boundary_eq lut⟩
  obtain ⟨hin, hA⟩ := hrep.of_not_ovf hovf
  exact ⟨hA.symm, hin⟩

/-! ### The simulation -/

theorem represents_start : Represents DecodeState.start SourceState.start := represents_start_numeralSource

/-- One unit takes both forms to states that represent each other, and makes the same item. -/
theorem Represents.decodeStep_sourceStep (lut : Memory) (inv : Bool) {d : DecodeState} {a : SourceState}
    (h : Represents d a) (b : Bool) :
    Represents (decodeStep lut inv d b).1 (sourceStep lut inv a b).1 ∧
      (decodeStep lut inv d b).2 = (sourceStep lut inv a b).2 := by
  have hlwz : d.lwz = a.lwz := h.1
  rw [decodeStep_eq, hlwz, sourceStep]
  cases a.lwz <;> cases effectiveBit b inv
  case true.true => exact ⟨represents_effectT01 h, rfl⟩
  case false.true => exact ⟨represents_effectT11 h, rfl⟩
  case false.false => exact ⟨represents_effectT10 h, rfl⟩
  case true.false => exact ⟨represents_start, h.boundary_eq lut⟩

section
variable {σ τ : Type} {f : σ → Bool → σ × Option Item} {g : τ → Bool → τ × Option Item} {R : σ → τ → Prop}

/-- A relation that every unit keeps, with the same item on both sides, is kept by every stream, with the same items. -/
theorem runUnits_simulation (hstep : ∀ x y b, R x y → R (f x b).1 (g y b).1 ∧ (f x b).2 = (g y b).2) {x : σ} {y : τ}
    (h : R x y) (u : List Bool) :
    R (runUnits f x u).1 (runUnits g y u).1 ∧ (runUnits f x u).2 = (runUnits g y u).2 := by
  induction u generalizing x y with
  | nil => exact ⟨h, rfl⟩
  | cons b u ih =>
    obtain ⟨hnext, hitem⟩ := hstep x y b h
    obtain ⟨hlast, hitems⟩ := ih hnext
    simp only [runUnits_cons, hitem, hitems]
    exact ⟨hlast, trivial⟩

/-- A property of the state that every unit keeps is kept by every stream. -/
theorem runUnits_invariant {P : σ → Prop} (hstep : ∀ x b, P x → P (f x b).1) {x : σ} (h : P x) (u : List Bool) :
    P (runUnits f x u).1 := by
  induction u generalizing x with
  | nil => exact h
  | cons b u ih => exact ih (hstep x b h)

end

theorem decodeUnits_simulates_source (lut : Memory) (inv : Bool) (u : List Bool) :
    Represents (decodeUnits lut inv DecodeState.start u).1 (runUnits (sourceStep lut inv) SourceState.start u).1 ∧
      (decodeUnits lut inv DecodeState.start u).2 = (runUnits (sourceStep lut inv) SourceState.start u).2 :=
  runUnits_simulation (fun _ _ b h => h.decodeStep_sourceStep lut inv b) represents_start u

theorem DecodeState.Shaped.decodeStep {d : DecodeState} (h : d.Shaped) (lut : Memory) (inv b : Bool) :
    (decodeStep lut inv d b).1.Shaped := by
  obtain ⟨a, hrep, hclean⟩ := h.exists_represents
  obtain ⟨hrep', -⟩ := hrep.decodeStep_sourceStep lut inv b
  exact DecodeState.shaped_of_represents hrep' (SourceState.clean_sourceStep lut inv hclean b)

/-! ### Wrapping accumulators -/

/-- The top two of `w` low digits are both zero when the number they form is below `2 ^ (w - 2)`. -/
theorem hasDoubleZero_lowBits_of_lt {n v : Nat} (h : v % 2 ^ (n + 2) < 2 ^ n) : hasDoubleZero (lowBits (n + 2) v) = true := by
  have htop : ∀ i, n ≤ i → (v % 2 ^ (n + 2)).testBit i = false := fun i hi =>
    Nat.testBit_lt_two_pow (h.trans_le (Nat.pow_le_pow_right (by decide) hi))
  rw [← lowBits_mod_two_pow, lowBits_succ_eq_cons, lowBits_succ_eq_cons, htop n (Nat.le_refl n), htop (n + 1) (Nat.le_succ n)]
  rfl

/-- An accumulator without `00` in its numeral stays out of the domain when it wraps at 14 bits or more: a one is left among
the bits from 12 on (R87). -/
theorem domain_le_mod_iff {w A : Nat} (hw : 14 ≤ w) (hzeros : hasDoubleZero (bin A) = false) :
    4096 ≤ A % 2 ^ w ↔ 4096 ≤ A := by
  refine ⟨fun h => h.trans (Nat.mod_le A _), fun hout => Nat.le_of_not_lt fun hlt => ?_⟩
  obtain ⟨n, rfl⟩ : ∃ n, w = n + 2 := ⟨w - 2, by omega⟩
  have hdom : 4096 ≤ 2 ^ n := Nat.pow_le_pow_right (n := 2) (by decide) (show 12 ≤ n by omega)
  by_cases hwide : 2 ^ (n + 2) ≤ 2 * A + 1
  · obtain ⟨u, hu⟩ := bin_eq_append_lowBits hwide
    rw [hu] at hzeros
    exact ne_true_of_eq_false (hasDoubleZero_of_append_right hzeros) (hasDoubleZero_lowBits_of_lt (hlt.trans_le hdom))
  · rw [Nat.mod_eq_of_lt (by omega)] at hlt
    omega

/-- A source whose accumulator wraps at `w` bits beside the unbounded one: the one holds the other's low `w` bits. -/
def WrapsTo (w : Nat) (x a : SourceState) : Prop := x.lwz = a.lwz ∧ x.A = a.A % 2 ^ w ∧ a.Clean

theorem wrapsTo_start (w : Nat) : WrapsTo w SourceState.start SourceState.start :=
  ⟨rfl, (Nat.zero_mod _).symm, SourceState.clean_start⟩

theorem SourceState.Clean.hasDoubleZero_bin {a : SourceState} (h : a.Clean) : hasDoubleZero (bin a.A) = false := by
  obtain ⟨-, hzero⟩ | ⟨-, hzeros⟩ := h
  · rw [hzero]
    rfl
  · exact hzeros

theorem WrapsTo.domain_le_iff {w : Nat} {x a : SourceState} (hw : 14 ≤ w) (h : WrapsTo w x a) : 4096 ≤ x.A ↔ 4096 ≤ a.A := by
  obtain ⟨-, hA, hclean⟩ := h
  rw [hA, domain_le_mod_iff hw hclean.hasDoubleZero_bin]

theorem sourceBoundary_of_domain_le (lut : Memory) {A : Nat} (hout : Config.domain ≤ A) :
    sourceBoundary lut A = some overflowItem := by
  have hne : A ≠ 0 := (Nat.lt_of_lt_of_le (by decide) hout).ne'
  rw [sourceBoundary, if_neg hne, if_pos hout]

/-- Inside the domain both hold the same number, and outside of it neither is looked up. -/
theorem WrapsTo.sourceBoundary_eq (lut : Memory) {w : Nat} {x a : SourceState} (hw : 14 ≤ w) (h : WrapsTo w x a) :
    sourceBoundary lut x.A = sourceBoundary lut a.A := by
  have hdom := h.domain_le_iff hw
  obtain ⟨-, hA, -⟩ := h
  by_cases hout : 4096 ≤ a.A
  · rw [sourceBoundary_of_domain_le lut hout, sourceBoundary_of_domain_le lut (hdom.mpr hout)]
  · have hpow : 2 ^ 14 ≤ 2 ^ w := Nat.pow_le_pow_right (by decide) hw
    rw [hA, Nat.mod_eq_of_lt (by omega)]

theorem WrapsTo.step (lut : Memory) (inv : Bool) {w : Nat} (hw : 14 ≤ w) {x a : SourceState} (h : WrapsTo w x a) (b : Bool) :
    WrapsTo w (wrappingStep w lut inv x b).1 (sourceStep lut inv a b).1 ∧
      (wrappingStep w lut inv x b).2 = (sourceStep lut inv a b).2 := by
  have hboundary := h.sourceBoundary_eq lut hw
  obtain ⟨hlwz, hA, hbefore⟩ := h
  have hclean := SourceState.clean_sourceStep lut inv hbefore b
  refine ⟨⟨?_, ?_, hclean⟩, ?_⟩ <;> simp only [wrappingStep, sourceStep, hlwz] <;> cases a.lwz <;> cases effectiveBit b inv
  case refine_2.true.true | refine_2.false.true => simp only [hA, Nat.add_mod, Nat.mul_mod, Nat.mod_mod]
  case refine_2.false.false => simp only [hA, Nat.mod_mod]
  case refine_3.true.false => exact hboundary
  all_goals rfl

/-- Settles O34: the register form by `Represents`, the wrapping forms by `WrapsTo`, both kept by every unit. -/
theorem allAccumulatorFormsAgree : Obligations.AllAccumulatorFormsAgree := by
  intro lut inv u
  obtain ⟨hrep, hitems⟩ := decodeUnits_simulates_source lut inv u
  refine ⟨hrep, hitems, fun w hw => ?_⟩
  obtain ⟨hwrap, hitems'⟩ := runUnits_simulation (R := WrapsTo w) (f := wrappingStep w lut inv) (g := sourceStep lut inv)
    (fun _ _ b h => h.step lut inv hw b) (wrapsTo_start w) u
  exact ⟨hwrap.domain_le_iff hw, hitems'⟩

end Machine
end Sys2Proof
end

section
/-! PROOFS. The cycle step: what each register holds after an edge, and the invariants that every step keeps
(spec/43_stream_interface.md R145 to R148, spec/10_state.md R28). -/

namespace Sys2Proof.Machine

/-! ### A step by its edge -/

theorem step_of_no_edges {s : State} (h : s.host.edges = []) : step s = .next s := by
  simp only [step, nextEdge, h]

theorem clockEdge_of_rst {p : Pins} (hrst : p.rst = true) (s : State) :
    clockEdge p s = .next (s.constructed p.cfgInvert) :=
  step_of_rst (p := p) s s.host.edges hrst

/-! ### The output buffer at an edge -/

theorem waiting_of_empty {s : State} (h : s.obufValid = false) : s.waiting = [] := by
  simp [State.waiting, h]

theorem waiting_of_valid {s : State} (h : s.obufValid = true) : s.waiting = [s.shownItem] := by
  simp [State.waiting, h]

theorem commit_waiting_of_empty {s : State} (h : s.obufValid = false) (r : DecodeState × Option Item) :
    (s.commit r).waiting = r.2.toList := by
  obtain ⟨d, _ | it⟩ := r
  · exact waiting_of_empty h
  · rfl

/-- A unit is accepted while an item waits only where the item leaves (R145). -/
theorem outFire_of_inFire {p : Pins} {s : State} (hfire : inFire p s = true) (hvalid : s.obufValid = true) :
    outFire p s = true := by
  obtain ⟨hrst, -, hroom⟩ := (inFire_iff p s).mp hfire
  exact (outFire_iff p s).mpr ⟨hrst, hvalid, hroom.resolve_left (ne_false_of_eq_true hvalid)⟩

/-- So the transfers of such an edge leave the buffer empty for the item that the unit may make. -/
theorem transfers_valid_of_inFire {p : Pins} {s : State} (hfire : inFire p s = true) : (transfers p s).obufValid = false := by
  rw [transfers_valid]
  cases hvalid : s.obufValid with
  | false => rfl
  | true => rw [outFire_of_inFire hfire hvalid]; rfl

/-- What the host has been given and will be given next, after the unit of an edge: as before, then the unit's item. -/
theorem commit_transfers_items_waiting {p : Pins} {s : State} (hfire : inFire p s = true) (r : DecodeState × Option Item) :
    ((transfers p s).commit r).host.itemsTaken ++ ((transfers p s).commit r).waiting =
      s.host.itemsTaken ++ s.waiting ++ r.2.toList := by
  have hempty := transfers_valid_of_inFire hfire
  have hkept := transfers_items_waiting p s
  rw [waiting_of_empty hempty, List.append_nil] at hkept
  rw [commit_waiting_of_empty hempty, commit_host, hkept]

/-! ### The item of a decode step -/

/-- A unit makes what the boundary puts out if it is a T00, and nothing otherwise. -/
theorem decodeStep_item (lut : Memory) (inv : Bool) (d : DecodeState) (b : Bool) :
    (decodeStep lut inv d b).2 = if d.lwz && !effectiveBit b inv then boundary lut d else none := by
  rw [decodeStep_eq]
  cases d.lwz <;> cases effectiveBit b inv <;> rfl

theorem boundary_of_decodeStep_item {lut : Memory} {inv : Bool} {d : DecodeState} {b : Bool} {it : Item}
    (h : (decodeStep lut inv d b).2 = some it) : d.lwz = true ∧ effectiveBit b inv = false ∧ boundary lut d = some it := by
  rw [decodeStep_item] at h
  split_ifs at h with ht00
  rw [Bool.and_eq_true, Bool.not_eq_true'] at ht00
  exact ⟨ht00.1, ht00.2, h⟩

/-! ### A property that every edge keeps is kept by every step, and by every run -/

/-- What to prove of a property so that every step keeps it: one goal for each thing that a step can do. -/
structure EdgeInvariant (P : State → Prop) : Prop where
  edges : ∀ s ps, P s → P (s.withEdges ps)
  reset : ∀ s c, P s → P (s.constructed c)
  unit : ∀ s p, inFire p s = true → P s → P ((transfers p s).commit (decodeStep s.lut s.invertQ s.dec p.inBit))
  idle : ∀ s p, inFire p s = false → P s → P (transfers p s)

theorem EdgeInvariant.step {P : State → Prop} (h : EdgeInvariant P) {s t : State} (hs : P s) (hstep : step s = .next t) :
    P t := by
  obtain ⟨-, hsame⟩ | ⟨p, rest, -, hnext⟩ := step_cases s
  · obtain rfl := Host.Outcome.next.inj (hsame.symm.trans hstep)
    exact hs
  · have hs' := h.edges s rest hs
    obtain ⟨-, hedge⟩ | ⟨-, hfire, hedge⟩ | ⟨-, hwait, hedge⟩ := clockEdge_cases p (s.withEdges rest) <;>
      obtain rfl := Host.Outcome.next.inj ((hnext.trans hedge).symm.trans hstep)
    · exact h.reset _ _ hs'
    · exact h.unit _ _ hfire hs'
    · exact h.idle _ _ hwait hs'

/-- Every step has a next state, so a run of `k` steps is made of steps, and keeps what each of them keeps. -/
theorem run_invariant {P : State → Prop} (hkeeps : ∀ s t, P s → step s = .next t → P t) {k : Nat} {s t : State} (hs : P s)
    (hrun : Host.Core.run Sys2Proof.core k s = .next t) : P t := by
  induction k generalizing s with
  | zero =>
    cases hrun
    exact hs
  | succ k ih =>
    obtain ⟨u, hstep, -⟩ := step_lut s
    rw [run_succ_of_step hstep] at hrun
    exact ih (hkeeps s u hs hstep) hrun

/-! ### The shape of the decode state -/

theorem edgeInvariant_shaped : EdgeInvariant fun s => s.dec.Shaped where
  edges _ _ h := h
  reset _ _ _ := DecodeState.shaped_start
  unit s p _ h := by
    rw [commit_dec]
    exact h.decodeStep s.lut s.invertQ p.inBit
  idle s p _ h := by rwa [transfers_dec]

/-- Settles O37: a decode state of that shape represents a source state that every unit keeps in shape. -/
theorem accumulatorShapeKept : Obligations.AccumulatorShapeKept :=
  ⟨DecodeState.shaped_start, fun _ _ => edgeInvariant_shaped.step⟩

/-! ### The two levels -/

theorem edgeInvariant_levelsAgree : EdgeInvariant State.LevelsAgree where
  edges _ _ h := h
  reset _ _ _ := rfl
  unit s p hfire h := by
    have hrecords := commit_transfers_items_waiting hfire (decodeStep s.lut s.invertQ s.dec p.inBit)
    unfold State.LevelsAgree at h ⊢
    rw [hrecords]
    simp only [commit_lut, commit_invertQ, commit_dec, commit_host, transfers_lut, transfers_invertQ, transfers_units, hfire,
      if_true, decodeUnits_snoc, h]
  idle s p hwait h := by
    have hunits := transfers_units p s
    rw [hwait, if_neg Bool.false_ne_true, List.append_nil] at hunits
    unfold State.LevelsAgree at h ⊢
    rw [transfers_items_waiting, transfers_lut, transfers_invertQ, transfers_dec, hunits, h]

/-- Settles O39: the item of an accepted unit is placed behind what was taken and what waited, as in `decodeUnits_snoc`. -/
theorem levelsAgreeKept : Obligations.LevelsAgreeKept := fun _ _ => edgeInvariant_levelsAgree.step

theorem waiting_length_le (s : State) : s.waiting.length ≤ 1 := by
  cases hvalid : s.obufValid with
  | false => simp [waiting_of_empty hvalid]
  | true => simp [waiting_of_valid hvalid]

theorem run_levelsAgree {k : Nat} {s t : State} (h : s.LevelsAgree) (hrun : Host.Core.run Sys2Proof.core k s = .next t) :
    t.LevelsAgree :=
  run_invariant (fun _ _ => edgeInvariant_levelsAgree.step) h hrun

/-- Settles O40: at the end of the run the levels agree still, so what is missing is what waits. -/
theorem itemsTakenArePrefix : Obligations.ItemsTakenArePrefix := by
  intro k s t hagree hrun
  have hitems := congrArg Prod.snd (run_levelsAgree hagree hrun)
  exact ⟨⟨t.waiting, hitems.symm⟩, hitems, waiting_length_le t⟩

/-- Settles O57: where the levels agree and nothing waits, the records are those of the program. -/
theorem endedRunGaveEverything : Obligations.EndedRunGaveEverything := by
  intro k s t program hagree hrun ⟨hunits, hempty⟩
  have hend : t.LevelsAgree := run_levelsAgree hagree hrun
  rw [State.LevelsAgree, hunits, waiting_of_empty hempty, List.append_nil] at hend
  exact hend.symm

/-! ### The buffer apart from the accumulator -/

/-- Only a T00 places an item, and it clears what is accumulated. -/
theorem edgeInvariant_bufferApart : EdgeInvariant State.BufferApart where
  edges _ _ h := h
  reset _ _ _ := fun _ => rfl
  unit s p hfire _ := by
    intro hvalid
    rw [commit_dec]
    cases hitem : (decodeStep s.lut s.invertQ s.dec p.inBit).2 with
    | none =>
      rw [State.commit, hitem, placeItem_none] at hvalid
      exact absurd hvalid (ne_true_of_eq_false (transfers_valid_of_inFire hfire))
    | some it =>
      obtain ⟨hlwz, he, -⟩ := boundary_of_decodeStep_item hitem
      exact decodeStep_clears s.lut hlwz he
  idle s p _ h := by
    intro hvalid
    rw [transfers_valid, Bool.and_eq_true] at hvalid
    obtain ⟨hwaits, -⟩ := hvalid
    rw [transfers_dec]
    exact h hwaits

/-- Settles O41: an edge that fills the buffer has just cleared the decode state (`edgeInvariant_bufferApart`). -/
theorem bufferApartKept : Obligations.BufferApartKept := fun _ _ => edgeInvariant_bufferApart.step

/-! ### Legal items -/

theorem overflowItem_legal : overflowItem.Legal := .inr ⟨rfl, .inr rfl⟩

theorem unknownItem_legal : unknownItem.Legal := .inr ⟨rfl, .inl rfl⟩

theorem symbolItem_legal (entry : Byte) : (symbolItem entry).Legal :=
  .inl ⟨by simp [symbolItem, zext8], rfl⟩

theorem boundary_legal {lut : Memory} {d : DecodeState} {it : Item} (h : boundary lut d = some it) : it.Legal := by
  obtain ⟨-, -, hb⟩ | ⟨-, hb⟩ | ⟨-, -, -, hb⟩ | ⟨-, -, -, hb⟩ := boundary_cases lut d <;> rw [hb] at h
  · exact absurd h (by simp)
  · exact Option.some.inj h ▸ overflowItem_legal
  · exact Option.some.inj h ▸ unknownItem_legal
  · exact Option.some.inj h ▸ symbolItem_legal _

theorem Item.Legal.cause_ne {it : Item} (h : it.Legal) : it.cause ≠ 0b11#2 := by
  obtain ⟨-, hc⟩ | ⟨-, hc | hc⟩ := h <;> rw [hc] <;> decide

theorem edgeInvariant_legal : EdgeInvariant fun s => ∀ it ∈ s.host.itemsTaken ++ s.waiting, it.Legal where
  edges _ _ h := h
  reset s c _ := by simp [waiting_of_empty (constructed_valid s c)]
  unit s p hfire h := by
    rw [commit_transfers_items_waiting hfire]
    intro it hit
    obtain hold | hnew := List.mem_append.mp hit
    · exact h it hold
    · obtain ⟨-, -, hmade⟩ := boundary_of_decodeStep_item (Option.mem_toList.mp hnew)
      exact boundary_legal hmade
  idle s p _ h := by rwa [transfers_items_waiting]

/-- Settles O42: an item is one of the boundary's three, and a step only adds items of that kind. -/
theorem onlyLegalItems : Obligations.OnlyLegalItems := by
  refine ⟨fun lut inv d b it hitem => ?_, fun s t => edgeInvariant_legal.step⟩
  obtain ⟨-, -, hmade⟩ := boundary_of_decodeStep_item hitem
  exact ⟨boundary_legal hmade, (boundary_legal hmade).cause_ne⟩

/-! ### The registers after an edge -/

theorem commit_valid_of_none (s : State) {r : DecodeState × Option Item} (h : r.2 = none) :
    (s.commit r).obufValid = s.obufValid ∧ (s.commit r).obufByte = s.obufByte ∧ (s.commit r).obufCause = s.obufCause := by
  rw [State.commit, h]
  exact ⟨rfl, rfl, rfl⟩

theorem commit_valid_of_some (s : State) {r : DecodeState × Option Item} {it : Item} (h : r.2 = some it) :
    (s.commit r).obufValid = true ∧ (s.commit r).obufByte = it.byte ∧ (s.commit r).obufCause = it.cause := by
  rw [State.commit, h]
  exact ⟨rfl, rfl, rfl⟩

/-- From `(1, 0, 0)` no unit makes an item. -/
theorem decodeStep_start_item (lut : Memory) (inv b : Bool) : (decodeStep lut inv DecodeState.start b).2 = none := by
  rw [decodeStep_item, boundary_of_nothing lut start_ovf start_acc, ite_self]

/-- Settles O20: the three things that an edge can do, and what each leaves in the registers. -/
theorem cycleStepFollowsDecodeStep : Obligations.CycleStepFollowsDecodeStep := by
  intro s p rest hedges
  rw [step_of_edges hedges]
  have happart : s.BufferApart → inFire p s = true → s.obufValid = true →
      (decodeStep s.lut s.invertQ s.dec p.inBit).2 = none := by
    intro hb _ hvalid
    rw [hb hvalid]
    exact decodeStep_start_item s.lut s.invertQ p.inBit
  have hvalid := transfers_valid p (s.withEdges rest)
  have hitems := transfers_items p (s.withEdges rest)
  obtain ⟨hrst, hedge⟩ | ⟨hrst, hfire, hedge⟩ | ⟨hrst, hwait, hedge⟩ := clockEdge_cases p (s.withEdges rest)
  · refine ⟨_, hedge, rfl, rfl, fun _ => ⟨rfl, rfl, rfl, rfl, rfl⟩, fun hlow => ?_⟩
    exact absurd hrst (ne_true_of_eq_false hlow)
  · refine ⟨_, hedge, by simp, by simp, fun hhigh => absurd hhigh (ne_true_of_eq_false hrst), fun _ =>
      ⟨by simp, fun _ => ⟨commit_dec _ _, fun it => commit_valid_of_some _, fun hnone => ?_⟩, fun hwait => ?_, ?_,
        outFire_of_inFire, happart⟩⟩
    · obtain ⟨hv, hb, hc⟩ := commit_valid_of_none (transfers p (s.withEdges rest)) hnone
      exact ⟨hv.trans hvalid, hb.trans (transfers_byte p _), hc.trans (transfers_cause p _)⟩
    · exact absurd hfire (ne_true_of_eq_false hwait)
    · rw [commit_host]
      exact hitems
  · refine ⟨_, hedge, by simp, by simp, fun hhigh => absurd hhigh (ne_true_of_eq_false hrst), fun _ =>
      ⟨by simp, fun hfire => ?_, fun _ => ⟨by simp, hvalid, transfers_byte p _, transfers_cause p _⟩, hitems,
        outFire_of_inFire, happart⟩⟩
    exact absurd hfire (ne_true_of_eq_false hwait)

/-! ### The host's records -/

/-- The same block, coming edges included, with other records. -/
def State.withRecords (s : State) (u : List Bool) (is : List Item) : State :=
  { s with host := { s.host with unitsTaken := u, itemsTaken := is } }

theorem commit_withRecords (s : State) (u : List Bool) (is : List Item) (r : DecodeState × Option Item) :
    (s.withRecords u is).commit r = (s.commit r).withRecords u is := by
  obtain ⟨d, _ | it⟩ := r <;> rfl

theorem transfers_withRecords (p : Pins) (s : State) (u : List Bool) (is : List Item) :
    ∃ u' is', transfers p (s.withRecords u is) = (transfers p s).withRecords u' is' := by
  have hin : inFire p (s.withRecords u is) = inFire p s := rfl
  have hout : outFire p (s.withRecords u is) = outFire p s := rfl
  simp only [transfers, hin, hout]
  cases inFire p s <;> cases outFire p s <;> exact ⟨_, _, rfl⟩

/-- An edge does the same to the block whatever the records hold. -/
theorem clockEdge_withRecords (p : Pins) (s : State) (u : List Bool) (is : List Item) :
    ∃ t u' is', clockEdge p s = .next t ∧ clockEdge p (s.withRecords u is) = .next (t.withRecords u' is') := by
  obtain ⟨u', is', hmoved⟩ := transfers_withRecords p s u is
  obtain ⟨hrst, hedge⟩ | ⟨hrst, hfire, hedge⟩ | ⟨hrst, hwait, hedge⟩ := clockEdge_cases p s
  · exact ⟨_, [], [], hedge, clockEdge_of_rst hrst (s.withRecords u is)⟩
  · refine ⟨_, u', is', hedge, ?_⟩
    rw [clockEdge_of_inFire (s := s.withRecords u is) hfire, hmoved, commit_withRecords]
    rfl
  · refine ⟨_, u', is', hedge, ?_⟩
    rw [clockEdge_of_not_inFire (s := s.withRecords u is) hrst hwait, hmoved]

/-- Settles O44: the next state with other records is the next state, with other records. -/
theorem recordsActOnNothing : Obligations.RecordsActOnNothing := by
  intro s t u is hstep
  obtain ⟨hnone, hsame⟩ | ⟨p, rest, hedges, hnext⟩ := step_cases s
  · obtain rfl := Host.Outcome.next.inj (hsame.symm.trans hstep)
    exact ⟨s.withRecords u is, step_of_no_edges hnone, rfl, rfl, rfl, rfl, rfl, rfl, rfl⟩
  · obtain ⟨t', u', is', hedge, hedge'⟩ := clockEdge_withRecords p (s.withEdges rest) u is
    obtain rfl := Host.Outcome.next.inj ((hnext.trans hedge).symm.trans hstep)
    refine ⟨t'.withRecords u' is', ?_, rfl, rfl, rfl, rfl, rfl, rfl, rfl⟩
    rw [← hedge']
    exact step_of_edges hedges

end Sys2Proof.Machine
end

section
/-! PROOFS. Code tables and the state that is made from one: which tables are accepted, the form of the ROM, and the state
after power-up and after reset (spec/42_lookup_table.md R120 to R123, spec/70_reset_and_hazards.md R190 to R193). -/

namespace Sys2Proof

/-! ### Accepted tables -/

theorem CodeTable.entryDefect_eq_none_iff (c : Nat) :
    CodeTable.entryDefect c = none ↔
      (1 ≤ c ∧ c ≤ 4095) ∧ hasDoubleZero (bin c) = false ∧ (bin c).getLast? = some true := by
  refine ⟨fun h => ?_, fun ⟨⟨hpos, hdom⟩, hzeros, hlast⟩ => ?_⟩
  · obtain ⟨hne, hdom⟩ := CodeTable.entry_range h
    exact ⟨⟨Nat.pos_of_ne_zero hne, Nat.le_of_lt_succ hdom⟩, CodeTable.entry_pattern h⟩
  · have hin : ¬ (c = 0 ∨ Config.domain ≤ c) := by
      simp only [Config.domain]
      omega
    simp [CodeTable.entryDefect, hin, hzeros, hlast]

theorem forall_mem_iff_codeOf (t : CodeTable) (P : Nat → Prop) :
    (∀ c ∈ t, P c) ↔ ∀ s < t.length, P (codeOf t s) := by
  rw [List.forall_mem_iff_forall_getElem]
  exact forall₂_congr fun s hs => by rw [codeOf_eq_getElem t hs]

theorem nodup_iff_codeOf (t : CodeTable) :
    t.Nodup ↔ ∀ s < t.length, ∀ r < t.length, codeOf t s = codeOf t r → s = r := by
  rw [List.nodup_iff_injective_getElem]
  refine ⟨fun hinj s hs r hr heq => ?_, fun h s r heq => Fin.ext (h s s.isLt r r.isLt ?_)⟩
  · rw [codeOf_eq_getElem t hs, codeOf_eq_getElem t hr] at heq
    exact congrArg Fin.val (@hinj ⟨s, hs⟩ ⟨r, hr⟩ heq)
  · rwa [codeOf_eq_getElem t s.isLt, codeOf_eq_getElem t r.isLt]

/-- R120's conditions, index by index. -/
theorem CodeTable.accepted_iff_codeOf (t : CodeTable) :
    t.Accepted ↔
      t.length = 128 ∧
      (∀ s < 128, 1 ≤ codeOf t s ∧ codeOf t s ≤ 4095) ∧
      (∀ s < 128, hasDoubleZero (pattern t s) = false) ∧
      (∀ s < 128, (pattern t s).getLast? = some true) ∧
      (∀ s < 128, ∀ r < 128, codeOf t s = codeOf t r → s = r) := by
  rw [CodeTable.accepted_iff]
  refine and_congr_right fun hlen => ?_
  rw [forall_mem_iff_codeOf, nodup_iff_codeOf, hlen]
  simp only [CodeTable.entryDefect_eq_none_iff, forall_and, and_assoc, pattern]

theorem defaultCodeTable_accepted : CodeTable.Accepted defaultCodeTable := by decide +kernel

/-- Settles O28: acceptance, and the bounds, by evaluation of the 128 entries. -/
theorem defaultTableProperties : Obligations.DefaultTableProperties := by
  refine ⟨defaultCodeTable_accepted, ?_, rfl, rfl, rfl, rfl⟩
  decide +kernel

namespace Machine

/-! ### Construction and power-up -/

theorem withTable_of_accepted {t : CodeTable} (ht : t.Accepted) (s : State) :
    withTable t s = .next { s with lut := buildLut t } := by
  obtain ⟨-, hnext⟩ | ⟨hnot, -⟩ := withTable_cases t s
  · exact hnext
  · exact absurd ht hnot

theorem withTable_of_not_accepted {t : CodeTable} (ht : ¬ t.Accepted) (s : State) :
    ∃ d, withTable t s = .refused (.codeTable d) := by
  obtain ⟨hacc, -⟩ | ⟨-, hrefused⟩ := withTable_cases t s
  · exact absurd hacc ht
  · exact hrefused

theorem construct_of_accepted {t : CodeTable} (ht : t.Accepted) (c : Bool) :
    construct t c = .next { State.reset with lut := buildLut t, invertQ := c } :=
  withTable_of_accepted ht _

/-- Settles O27: the check by `accepted_iff_codeOf`, and construction and power-up by that check. -/
theorem tablesAcceptedExactly : Obligations.TablesAcceptedExactly := fun t c =>
  ⟨t.accepted_iff_codeOf, fun ht => construct_of_accepted ht c, fun ht => withTable_of_not_accepted ht _,
    fun ps => ⟨fun ht => powerUp_of_accepted ht ps, fun ht => withTable_of_not_accepted ht _⟩⟩

/-- Settles O58: the reset edge overwrites every register that power-up leaves free, and keeps the ROM. -/
theorem bootByOneResetEdge : Obligations.BootByOneResetEdge := fun t p rest ht hrst =>
  ⟨_, _, powerUp_of_accepted ht (p :: rest), construct_of_accepted ht p.cfgInvert,
    step_of_rst { State.unreset [] with lut := buildLut t } rest hrst⟩

/-! ### The form of the ROM -/

theorem lutEntryWf_lutWord (s : Nat) : lutEntryWf (lutWord s) = true := by
  have hvalid : (lutWord s)[7] = true := lutValid_lutWord s
  rw [lutEntryWf, hvalid, Bool.true_or]

theorem lutWordsWf_enterCodes (t : CodeTable) (s : Nat) {m : Memory} (hm : LutWordsWf m) : LutWordsWf (enterCodes t s m) := by
  induction t generalizing s m with
  | nil => exact hm
  | cons c t ih =>
    refine ih (s + 1) fun x hx => ?_
    obtain ⟨rfl, -⟩ | hold := mem_write hx
    · exact lutEntryWf_lutWord s
    · exact hm x hold

theorem buildLut_form {t : CodeTable} (ht : t.Accepted) : (buildLut t).wf ∧ LutWordsWf (buildLut t) := by
  obtain ⟨-, hentry, -⟩ := (CodeTable.accepted_iff t).mp ht
  exact ⟨buildLut_wf t fun c hc => (CodeTable.entry_range (hentry c hc)).2, lutWordsWf_enterCodes t 0 (by simp [LutWordsWf])⟩

/-- Whatever is made from a table has the form of the table's ROM. -/
theorem withTable_form {c : CodeTable} {s t : State} (h : withTable c s = .next t) : t.lut.wf ∧ LutWordsWf t.lut := by
  obtain ⟨hc, hnext⟩ | ⟨-, d, hrefused⟩ := withTable_cases c s
  · obtain rfl := Host.Outcome.next.inj (hnext.symm.trans h)
    exact buildLut_form hc
  · rw [hrefused] at h
    cases h

/-- Settles O31: a table's ROM has the form, and a step keeps the ROM itself (`step_lut`). -/
theorem romFormKept : Obligations.RomFormKept := by
  refine ⟨fun c inv t h => withTable_form h, fun c ps t h => withTable_form h, fun s t hwf hwords hstep => ?_⟩
  obtain ⟨t', hstep', hlut⟩ := step_lut s
  obtain rfl := Host.Outcome.next.inj (hstep'.symm.trans hstep)
  rw [hlut]
  exact ⟨hwf, hwords⟩

/-- Settles O38: the decode state is `(1, 0, 0)`, the buffer and the records are empty, the ROM is a table's. -/
theorem invariantsHoldAtReset : Obligations.InvariantsHoldAtReset :=
  ⟨DecodeState.shaped_start, fun _ => rfl, rfl, buildLut_form defaultCodeTable_accepted⟩

/-! ### A pattern that is no code -/

/-- Settles O12: the entry of an index that is no code is 8'h00, whose valid bit is clear. -/
theorem unknownMakesSentinel : Obligations.UnknownMakesSentinel := by
  refine ⟨fun _ => rfl, fun t s ht hlut hovf hacc hother => exec_t00_of_invalid hovf hacc ?_⟩
  rw [hlut, read_buildLut_of_not_mem (ht.not_mem_of_codeOf_ne hother)]
  rfl

end Machine
end Sys2Proof
end

section
/-! PROOFS. Streams of units: what makes an item and what makes none, the flush, streams of symbols, and how a stream finds
its symbols again (spec/40_accumulation.md R88, R89, spec/42_lookup_table.md R126, spec/70_reset_and_hazards.md R195, R198,
R201). -/

namespace Sys2Proof.Machine

/-! ### Which unit makes an item -/

theorem boundary_isSome_iff (lut : Memory) (d : DecodeState) :
    (boundary lut d).isSome = true ↔ d.acc ≠ 0#12 ∨ d.ovf = true := by
  obtain ⟨hovf, hacc, hb⟩ | ⟨hovf, hb⟩ | ⟨-, hacc, -, hb⟩ | ⟨-, hacc, -, hb⟩ := boundary_cases lut d
  · simp [hb, hovf, hacc]
  · simp [hb, hovf]
  · simp [hb, hacc]
  · simp [hb, hacc]

theorem boundary_length_of_accumulated (lut : Memory) {d : DecodeState} (h : d.acc ≠ 0#12 ∨ d.ovf = true) :
    (boundary lut d).toList.length = 1 := by
  obtain ⟨it, hit⟩ := Option.isSome_iff_exists.mp ((boundary_isSome_iff lut d).mpr h)
  rw [hit]
  rfl

theorem decodeStep_item_isSome_iff (lut : Memory) (inv : Bool) (d : DecodeState) (b : Bool) :
    (decodeStep lut inv d b).2.isSome = true ↔
      d.lwz = true ∧ effectiveBit b inv = false ∧ (d.acc ≠ 0#12 ∨ d.ovf = true) := by
  rw [decodeStep_item, ← boundary_isSome_iff lut d]
  cases d.lwz <;> cases effectiveBit b inv <;> simp

/-- Settles O51: one unit by `decodeStep_item_isSome_iff`, the order by `decodeUnits_append`. -/
theorem itemsComeFromBoundariesInOrder : Obligations.ItemsComeFromBoundariesInOrder := fun lut inv d =>
  ⟨decodeStep_item_isSome_iff lut inv d, decodeUnits_append lut inv d, decodeUnits_items_length_le lut inv d⟩

/-! ### The last unit, and the effective bits of a stream -/

theorem decodeStep_lwz (lut : Memory) (inv : Bool) (d : DecodeState) (b : Bool) :
    (decodeStep lut inv d b).1.lwz = !effectiveBit b inv := by
  rw [decodeStep_eq]
  cases d.lwz <;> cases effectiveBit b inv <;> rfl

theorem decodeUnits_effective (lut : Memory) (inv : Bool) (d : DecodeState) (u : List Bool) :
    decodeUnits lut inv d u = decodeUnits lut false d (u.map (· ^^ inv)) := by
  induction u generalizing d with
  | nil => rfl
  | cons b u ih =>
    have hstep : decodeStep lut inv d b = decodeStep lut false d (b ^^ inv) := decodeStep_effective lut inv d b
    rw [List.map_cons, decodeUnits_cons, decodeUnits_cons, hstep, ih]

/-- A stream without `00`, a pending zero counted: its first unit completes none, and neither does the rest with that unit
pending in turn if it is a zero. -/
theorem hasDoubleZero_after_unit {lwz b : Bool} {u : List Bool}
    (h : hasDoubleZero ((if lwz then [false] else []) ++ b :: u) = false) :
    (lwz && !b) = false ∧ hasDoubleZero ((if !b then [false] else []) ++ u) = false := by
  have htail : hasDoubleZero (b :: u) = false := hasDoubleZero_of_append_right h
  cases b with
  | true => exact ⟨Bool.and_false lwz, hasDoubleZero_of_append_right (u := [true]) htail⟩
  | false =>
    refine ⟨?_, htail⟩
    cases lwz with
    | false => rfl
    | true => simp [hasDoubleZero_cons] at h

/-- Units that complete no `00`, a pending zero counted as the first of them, make nothing. -/
theorem decodeUnits_items_of_no_double_zero (lut : Memory) {d : DecodeState} {u : List Bool}
    (h : hasDoubleZero ((if d.lwz then [false] else []) ++ u) = false) : (decodeUnits lut false d u).2 = [] := by
  induction u generalizing d with
  | nil => rfl
  | cons b u ih =>
    have hrest := decodeStep_lwz lut false d b
    rw [effectiveBit_false] at hrest
    obtain ⟨hboundary, hzeros⟩ := hasDoubleZero_after_unit h
    have hitem : (decodeStep lut false d b).2 = none := by
      rw [decodeStep_item, effectiveBit_false, hboundary]
      rfl
    rw [decodeUnits_cons, hitem, ih (by rwa [hrest])]
    rfl

/-! ### The flush -/

/-- Two zeros are one boundary from any state: after a one the first is pending, after a zero the second is idle. -/
theorem decodeUnits_flush_any (lut : Memory) (d : DecodeState) :
    decodeUnits lut false d flushUnits = (DecodeState.start, (boundary lut d).toList) := by
  cases hlwz : d.lwz with
  | false => exact decodeUnits_flush lut hlwz
  | true =>
    rw [flushUnits, decodeUnits_cons, decodeStep_of_t00 lut hlwz, effectT00, decodeUnits_cons, decodeStep_start_zero]
    exact congrArg _ (List.append_nil _)

theorem decodeUnits_flush_idle (lut : Memory) (d : DecodeState) (n : Nat) :
    decodeUnits lut false d (flushUnits ++ idleUnits n) = (DecodeState.start, (boundary lut d).toList) := by
  rw [decodeUnits_append, decodeUnits_flush_any, decodeUnits_start_idle, List.append_nil]

/-- Settles O53: the units are taken through their effective bits, where the flush is two zeros and its extra units are
idle. -/
theorem flushByTerminator : Obligations.FlushByTerminator := by
  refine fun lut inv d => ⟨fun hacc => ⟨fun n => ?_, fun hlwz => ?_⟩, fun u hno => ?_⟩
  · have hunits : (inv :: inv :: List.replicate n inv).map (· ^^ inv) = flushUnits ++ idleUnits n := by
      simp [flushUnits, idleUnits]
    rw [decodeUnits_effective, hunits, decodeUnits_flush_idle]
    exact ⟨rfl, boundary_length_of_accumulated lut hacc⟩
  · have hunits : [inv].map (· ^^ inv) = [false] := by simp
    rw [decodeUnits_effective, hunits, decodeUnits_cons, decodeStep_of_t00 lut hlwz, decodeUnits_nil, List.append_nil]
    exact boundary_length_of_accumulated lut hacc
  · rw [decodeUnits_effective]
    exact decodeUnits_items_of_no_double_zero lut hno

/-! ### Streams of symbols -/

theorem decodeUnits_start_idle_append (lut : Memory) (n : Nat) (u : List Bool) :
    decodeUnits lut false DecodeState.start (idleUnits n ++ u) = decodeUnits lut false DecodeState.start u := by
  rw [decodeUnits_append, decodeUnits_start_idle, List.nil_append]

/-- Every symbol of a stream starts from `(1, 0, 0)`, by induction on the symbols. -/
theorem decodeUnits_symbolStream {t : CodeTable} (ht : t.Accepted) {cs : List (Nat × Nat)} (hcs : ∀ c ∈ cs, c.1 < 128) :
    decodeUnits (buildLut t) false DecodeState.start (symbolStream t cs) =
      (DecodeState.start, cs.map fun c => { byte := BitVec.ofNat 8 c.1, cause := Config.causeSym }) := by
  induction cs with
  | nil => rfl
  | cons c cs ih =>
    obtain ⟨s, n⟩ := c
    obtain ⟨hs, hcs'⟩ := List.forall_mem_cons.mp hcs
    rw [symbolStream, List.append_assoc, decodeUnits_append, decodeUnits_symUnits ht hs, decodeUnits_start_idle_append,
      ih hcs']
    rfl

/-- Two symbols with one pattern decode from the same units, hence to the same byte. -/
theorem pattern_injective {t : CodeTable} (ht : t.Accepted) {s r : Nat} (hs : s < 128) (hr : r < 128)
    (h : pattern t s = pattern t r) : s = r := by
  have hunits : symUnits t s = symUnits t r := by rw [symUnits, symUnits, h]
  have hitems := decodeUnits_symUnits ht hs
  rw [hunits, decodeUnits_symUnits ht hr] at hitems
  have hbyte : BitVec.ofNat 8 r = BitVec.ofNat 8 s := by simpa using hitems
  have hnat := congrArg BitVec.toNat hbyte
  simp only [BitVec.toNat_ofNat] at hnat
  omega

/-- Settles O47: streams by `decodeUnits_symbolStream`, patterns by `pattern_injective`. -/
theorem uniqueDecoding : Obligations.UniqueDecoding := fun _ ht =>
  ⟨fun _ => decodeUnits_symbolStream ht, fun _ hs _ hr => pattern_injective ht hs hr⟩

/-! ### The reset value of `lwz` -/

/-- The first unit from reset: a one is accumulated, a zero is idle. -/
theorem decodeStep_start (lut : Memory) (inv b : Bool) :
    decodeStep lut inv DecodeState.start b =
      (if b ^^ inv then { lwz := false, acc := 1#12, ovf := false } else DecodeState.start, none) := by
  rw [decodeStep_effective, effectiveBit]
  cases b ^^ inv
  · exact decodeStep_start_zero lut
  · rfl

/-- The same from `(0, 0, 0)`, where a one is T11 and a zero is T10. -/
theorem decodeStep_start_cleared_lwz (lut : Memory) (inv b : Bool) :
    decodeStep lut inv { lwz := false, acc := 0#12, ovf := false } b = decodeStep lut inv DecodeState.start b := by
  rw [decodeStep_start, decodeStep_effective, effectiveBit]
  cases b ^^ inv <;> rfl

theorem decodeUnits_start_cleared_lwz (lut : Memory) (inv : Bool) {u : List Bool} (h : u ≠ []) :
    decodeUnits lut inv DecodeState.start u = decodeUnits lut inv { lwz := false, acc := 0#12, ovf := false } u := by
  obtain ⟨b, u, rfl⟩ := List.exists_cons_of_ne_nil h
  rw [decodeUnits_cons, decodeUnits_cons, decodeStep_start_cleared_lwz]

/-- Settles O50: the first unit takes both to the same state, and without a unit there is no item. -/
theorem resetLwzUnobservable : Obligations.ResetLwzUnobservable := by
  refine fun lut inv u => ⟨decodeStep_start lut inv, ?_, decodeUnits_start_cleared_lwz lut inv⟩
  by_cases h : u = []
  · rw [h]
    rfl
  · rw [decodeUnits_start_cleared_lwz lut inv h]

/-! ### Finding the symbols again -/

/-- The units of a first stretch up to its `00` make nothing: a zero at its front is idle, as if `lwz` were clear. -/
theorem decodeUnits_start_stretch (lut : Memory) {u : List Bool} (h : hasDoubleZero u = false) :
    (decodeUnits lut false DecodeState.start u).2 = [] := by
  by_cases hnil : u = []
  · rw [hnil]
    rfl
  · rw [decodeUnits_start_cleared_lwz lut false hnil]
    exact decodeUnits_items_of_no_double_zero lut h

theorem decodeUnits_shaped (lut : Memory) (inv : Bool) {d : DecodeState} (h : d.Shaped) (u : List Bool) :
    (decodeUnits lut inv d u).1.Shaped :=
  runUnits_invariant (f := decodeStep lut inv) (fun _ b hd => hd.decodeStep lut inv b) h u

/-- A last unit one is still in the accumulator. -/
theorem decodeUnits_start_accumulated (lut : Memory) (u : List Bool) :
    (decodeUnits lut false DecodeState.start (u ++ [true])).1.acc ≠ 0#12 ∨
      (decodeUnits lut false DecodeState.start (u ++ [true])).1.ovf = true := by
  obtain ⟨hone, -⟩ := decodeUnits_shaped lut false DecodeState.shaped_start (u ++ [true])
  refine hone ?_
  rw [decodeUnits_snoc, decodeStep_lwz]
  rfl

theorem decodeUnits_broken_symbol (lut : Memory) {u : List Bool} (hone : true ∈ u)
    (hno : hasDoubleZero (u ++ [false]) = false) :
    (decodeUnits lut false DecodeState.start (u ++ flushUnits)).2.length = 1 := by
  obtain ⟨v, b, rfl⟩ := (List.eq_nil_or_concat' u).resolve_left (List.ne_nil_of_mem hone)
  rw [hasDoubleZero_append] at hno
  simp only [Bool.or_eq_false_iff, List.getLast?_concat] at hno
  obtain ⟨⟨hzeros, -⟩, hlast⟩ := hno
  obtain rfl : b = true := by simpa using hlast
  rw [decodeUnits_append, decodeUnits_start_stretch lut hzeros, decodeUnits_flush_any]
  exact boundary_length_of_accumulated lut (decodeUnits_start_accumulated lut v)

/-- Settles O48: the two zeros end at `(1, 0, 0)` from any state, from where the symbols decode. -/
theorem streamResynchronises : Obligations.StreamResynchronises := by
  refine ⟨fun t d u cs ht hcs => ?_, fun lut u => decodeUnits_broken_symbol lut, decodeUnits_start_idle_append⟩
  have hstart : (decodeUnits (buildLut t) false d (u ++ flushUnits)).1 = DecodeState.start := by
    rw [decodeUnits_append_state, decodeUnits_flush_any]
  rw [decodeUnits_append, hstart, decodeUnits_symbolStream ht hcs]
  rfl

/-! ### Patterns and overflow -/

/-- Settles O45: the numeral of an odd number leaves that number, by `decodeUnits_bin`. -/
theorem patternAccumulatesToCode : Obligations.PatternAccumulatesToCode := by
  intro lut v hpos hdom hzeros hlast
  have hodd : v % 2 = 1 := by simpa [bin_getLast? (Nat.ne_of_gt hpos)] using hlast
  obtain ⟨hrep, hitems⟩ := decodeUnits_bin lut hzeros
  rw [numeralSource_odd hodd] at hrep
  exact Prod.ext (hrep.eq_of_lt hdom) hitems

theorem bin_two_pow_sub_one (k : Nat) : bin (2 ^ k - 1) = onesUnits k := by
  induction k with
  | zero => rfl
  | succ k ih =>
    have hpow : 0 < 2 ^ k := Nat.two_pow_pos k
    rw [Nat.pow_succ, show 2 ^ k * 2 - 1 = (2 ^ k - 1) * 2 + 1 by omega, bin_two_mul_add_one, ih, onesUnits, onesUnits,
      List.replicate_succ']

theorem hasDoubleZero_onesUnits (k : Nat) : hasDoubleZero (onesUnits k) = false := by
  induction k with
  | zero => rfl
  | succ k ih => rw [onesUnits, List.replicate_succ', hasDoubleZero_append_true, ← onesUnits, ih]

/-- Thirteen ones or more accumulate to a number outside the domain. -/
theorem decodeUnits_onesUnits_ovf (lut : Memory) {k : Nat} (hk : 13 ≤ k) :
    (decodeUnits lut false DecodeState.start (onesUnits k)).1.ovf = true := by
  have hpow : 2 ^ 13 ≤ 2 ^ k := Nat.pow_le_pow_right (by decide) hk
  obtain ⟨n, rfl⟩ : ∃ n, k = n + 1 := ⟨k - 1, by omega⟩
  have hodd : (2 ^ (n + 1) - 1) % 2 = 1 := by
    rw [Nat.pow_succ] at hpow ⊢
    omega
  have hzeros : hasDoubleZero (bin (2 ^ (n + 1) - 1)) = false := by rw [bin_two_pow_sub_one, hasDoubleZero_onesUnits]
  obtain ⟨hrep, -⟩ := decodeUnits_bin lut hzeros
  rw [bin_two_pow_sub_one, numeralSource_odd hodd] at hrep
  obtain ⟨-, -, hdom⟩ := hrep
  exact hdom.mpr (show 4096 ≤ 2 ^ (n + 1) - 1 by omega)

theorem decodeUnits_overflow_run (lut : Memory) {k : Nat} (hk : 13 ≤ k) :
    decodeUnits lut false DecodeState.start (onesUnits k ++ flushUnits) = (DecodeState.start, [overflowItem]) := by
  rw [decodeUnits_append, decodeUnits_start_stretch lut (hasDoubleZero_onesUnits k), decodeUnits_flush_any,
    boundary_of_overflow lut (decodeUnits_onesUnits_ovf lut hk)]
  rfl

/-- What is accumulated has at most `n` binary digits, a pending zero counted as the last of them. -/
def SourceState.FitsIn (n : Nat) (a : SourceState) : Prop := (if a.lwz then a.A * 2 else a.A) < 2 ^ n

theorem SourceState.FitsIn.sourceStep {n : Nat} {a : SourceState} (h : a.FitsIn n) (lut : Memory) (inv b : Bool) :
    (sourceStep lut inv a b).1.FitsIn (n + 1) := by
  have hpow : 0 < 2 ^ n := Nat.two_pow_pos n
  unfold SourceState.FitsIn Machine.sourceStep at *
  rw [Nat.pow_succ]
  cases hlwz : a.lwz <;> cases effectiveBit b inv <;> simp only [hlwz, if_true, if_false, Bool.false_eq_true] at h ⊢ <;> omega

/-- A unit adds at most one digit. -/
theorem SourceState.FitsIn.runUnits (lut : Memory) (inv : Bool) {n : Nat} {a : SourceState} (h : a.FitsIn n) (u : List Bool) :
    (runUnits (Machine.sourceStep lut inv) a u).1.FitsIn (n + u.length) := by
  induction u generalizing n a with
  | nil => exact h
  | cons b u ih =>
    rw [List.length_cons, Nat.add_comm u.length 1, ← Nat.add_assoc]
    exact ih (h.sourceStep lut inv b)

theorem SourceState.FitsIn.lt {n : Nat} {a : SourceState} (h : a.FitsIn n) : a.A < 2 ^ n := by
  unfold SourceState.FitsIn at h
  split_ifs at h <;> omega

theorem decodeUnits_ovf_of_short (lut : Memory) {u : List Bool} (h : u.length ≤ 12) :
    (decodeUnits lut false DecodeState.start u).1.ovf = false := by
  have hstart : SourceState.start.FitsIn 0 := by simp [SourceState.FitsIn, SourceState.start]
  have hfits := (hstart.runUnits lut false u).lt
  have hpow : 2 ^ (0 + u.length) ≤ 2 ^ 12 := Nat.pow_le_pow_right (by decide) (by omega)
  exact (decodeUnits_simulates_source lut false u).1.ovf_eq_false (hfits.trans_le hpow)

/-- Settles O11: thirteen ones leave the domain (`decodeUnits_onesUnits_ovf`), and twelve units of any kind do not. -/
theorem overflowMakesOneSentinel : Obligations.OverflowMakesOneSentinel :=
  ⟨fun _ => rfl, fun _ => exec_t00_of_overflow, fun lut _ => decodeUnits_overflow_run lut,
    fun lut _ => decodeUnits_ovf_of_short lut⟩

/-! ### Units per item -/

/-- The units since the last boundary that the next item can count as its own, as far as the state shows them: a one before
a pending zero, a one alone, or none. -/
def DecodeState.unitsShown (d : DecodeState) : Nat :=
  if d.lwz then (if nothingAccumulated d then 0 else 2) else 1

theorem unitsShown_start : DecodeState.start.unitsShown = 0 := rfl

theorem unitsShown_of_one {d : DecodeState} (h : d.lwz = false) : d.unitsShown = 1 := by
  simp [DecodeState.unitsShown, h]

theorem unitsShown_of_zero {d : DecodeState} (h : d.lwz = true) :
    d.unitsShown = if nothingAccumulated d then 0 else 2 := by
  simp [DecodeState.unitsShown, h]

/-- A one alone is followed by a zero that is pending, so an item comes with the third unit at the earliest. -/
theorem decodeStep_three_units (lut : Memory) (inv : Bool) (d : DecodeState) (b : Bool) :
    3 * (decodeStep lut inv d b).2.toList.length + (decodeStep lut inv d b).1.unitsShown ≤ d.unitsShown + 1 := by
  rw [decodeStep_eq]
  cases hlwz : d.lwz <;> cases effectiveBit b inv
  case true.true | false.true =>
    exact Nat.le_add_left 1 d.unitsShown
  case false.false =>
    have hpending : (effectT10 d).1.unitsShown ≤ 2 := by
      rw [unitsShown_of_zero rfl]
      split_ifs <;> decide
    rw [unitsShown_of_one hlwz]
    exact (Nat.zero_add _).trans_le hpending
  case true.false =>
    change 3 * (boundary lut d).toList.length + DecodeState.start.unitsShown ≤ d.unitsShown + 1
    rw [unitsShown_start, unitsShown_of_zero hlwz]
    split_ifs with hnothing
    · obtain ⟨hovf, hacc⟩ := (nothingAccumulated_iff d).mp hnothing
      rw [boundary_of_nothing lut hovf hacc]
      exact Nat.zero_le _
    · have hone : (boundary lut d).toList.length ≤ 1 := Option.length_toList_le
      omega

/-- Three units for each item, and those that the last state shows are left over, by induction on the units. -/
theorem decodeUnits_three_units (lut : Memory) (inv : Bool) (d : DecodeState) (u : List Bool) :
    3 * (decodeUnits lut inv d u).2.length + (decodeUnits lut inv d u).1.unitsShown ≤ d.unitsShown + u.length := by
  induction u generalizing d with
  | nil => simp
  | cons b u ih =>
    have hstep := decodeStep_three_units lut inv d b
    have hrest := ih (decodeStep lut inv d b).1
    rw [decodeUnits_cons, List.length_cons]
    simp only [List.length_append]
    omega

/-- The shortest pattern, that of SP. -/
theorem symUnits_defaultCodeTable_space : symUnits defaultCodeTable 32 = [true, false, false] := rfl

/-- Settles O52: from `(1, 0, 0)` no unit is shown, and `100` is the symbol with the code 1. -/
theorem threeUnitsPerItem : Obligations.ThreeUnitsPerItem := by
  refine ⟨fun lut inv u => ?_, ?_⟩
  · have hunits := decodeUnits_three_units lut inv DecodeState.start u
    rw [unitsShown_start] at hunits
    omega
  · rw [← symUnits_defaultCodeTable_space]
    exact decodeUnits_symUnits defaultCodeTable_accepted (by decide)

end Sys2Proof.Machine
end

section
/-! PROOFS. One step of the machine and runs of steps: the frame of the instructions, which instruction an edge runs, the
pins, stalled edges, edges that feed units, and that nothing ever stops (spec/43_stream_interface.md R141 to R146,
spec/60_exceptions.md R173, spec/70_reset_and_hazards.md R200). -/

namespace Sys2Proof.Machine

/-! ### The instructions -/

/-- Settles O15: RESET is the construction of R190. -/
theorem resetInstructionResult : Obligations.ResetInstructionResult := fun _ _ => rfl

/-- An instruction is a construction, or it writes back a decode state and at most one item. -/
theorem exec_cases (i : Instr) (s : State) :
    (∃ c, i = .reset c ∧ exec i s = .next (s.constructed c)) ∨
    ((∀ c, i ≠ .reset c) ∧ ∃ r, exec i s = .next (s.commit r)) := by
  cases i with
  | reset c => exact .inl ⟨c, rfl, rfl⟩
  | _ => exact .inr ⟨nofun, _, rfl⟩

/-- The instructions that emit nothing leave the output buffer. -/
theorem exec_silent {i : Instr} (hi : i ∈ [Instr.t01, .t11, .t10, .boundaryIdle]) (s : State) :
    ∃ d, exec i s = .next { s with dec := d } := by
  simp only [List.mem_cons, List.not_mem_nil, or_false] at hi
  obtain rfl | rfl | rfl | rfl := hi <;> exact ⟨_, rfl⟩

/-- Settles O17: what a construction keeps, what a write-back keeps, what a silent instruction keeps, and T10. -/
theorem instructionFrame : Obligations.InstructionFrame := by
  intro i s t hexec
  have hsilent : i ∈ [Instr.t01, .t11, .t10, .boundaryIdle] →
      t.obufValid = s.obufValid ∧ t.obufByte = s.obufByte ∧ t.obufCause = s.obufCause := by
    intro hi
    obtain ⟨d, hnext⟩ := exec_silent hi s
    obtain rfl := Host.Outcome.next.inj (hnext.symm.trans hexec)
    exact ⟨rfl, rfl, rfl⟩
  have ht10 : i = .t10 → t.dec.acc = s.dec.acc ∧ t.dec.ovf = s.dec.ovf := by
    rintro rfl
    obtain rfl := Host.Outcome.next.inj ((exec_t10 s).symm.trans hexec)
    exact ⟨rfl, rfl⟩
  obtain ⟨c, rfl, hnext⟩ | ⟨-, r, hnext⟩ := exec_cases i s <;>
    obtain rfl := Host.Outcome.next.inj (hnext.symm.trans hexec)
  · exact ⟨fun _ => rfl, rfl, fun hnot => absurd rfl (hnot c), hsilent, ht10⟩
  · exact ⟨fun a => by rw [commit_lut], by rw [commit_host], fun _ => ⟨commit_invertQ s r, commit_host s r⟩, hsilent, ht10⟩

/-! ### Which instruction an edge runs -/

theorem clockEdge_of_edgeRuns {p : Pins} {s : State} (h : p.rst = true ∨ inFire p s = true) :
    clockEdge p s = exec (decode (fetchCode p s)) (transfers p s) := by
  rw [clockEdge, if_pos (by rwa [edgeRuns, Bool.or_eq_true])]

/-- Settles O18: the clauses are the branches of a step and of its edge. -/
theorem stepRunsDecodedInstruction : Obligations.StepRunsDecodedInstruction := by
  refine ⟨fun _ => step_of_no_edges, fun s p rest hedges => ⟨?_, fun hrst hwait => ?_⟩⟩
  · rintro i hruns rfl
    rw [step_of_edges hedges]
    exact clockEdge_of_edgeRuns (s := s.withEdges rest) hruns
  · rw [step_of_edges hedges]
    exact clockEdge_of_not_inFire (s := s.withEdges rest) hrst hwait

/-! ### A table word placed for the next step -/

theorem inFire_offerPins (b : Bool) (s : State) : inFire (offerPins b) s = true :=
  (inFire_iff _ s).mpr ⟨rfl, rfl, .inr rfl⟩

theorem fetchCode_offerPins (s : State) (e : Bool) :
    fetchCode (offerPins (e ^^ s.invertQ)) s = .sel (selector s.dec.lwz e) := by
  have he : effectiveBit (e ^^ s.invertQ) s.invertQ = e := by simp [effectiveBit]
  rw [fetchCode, offerPins_rst, offerPins_inBit, he]
  rfl

/-- A placed selector is the one that the next edge forms. -/
theorem step_placeSelector (s : State) {w : Nat} (h : w < 4) :
    step (s.placeSelector w) =
      exec (decode (.sel (selector (w.testBit 1) (w.testBit 0))))
        (transfers (offerPins (w.testBit 0 ^^ s.invertQ)) { s with dec := { s.dec with lwz := w.testBit 1 } }) := by
  rw [State.placeSelector, if_pos h, step_of_edges rfl, clockEdge_of_edgeRuns (.inr (inFire_offerPins _ _))]
  exact congrArg (fun c => exec (decode c) _) (fetchCode_offerPins { s with dec := { s.dec with lwz := w.testBit 1 } } _)

/-- Settles O19: `decodeTableWord_of_lt` for the word, `step_placeSelector` for the step. -/
theorem tableWordRunsNext : Obligations.TableWordRunsNext := by
  intro s w hw
  have hword : w % 2 ^ (8 * ((8 + 7) / 8)) = w := Nat.mod_eq_of_lt (hw.trans (by decide))
  refine ⟨_, decodeTableWord_of_lt hw, ?_⟩
  rw [State.withFetchWord, hword]
  exact step_placeSelector s hw

/-! ### The pins -/

/-- Settles O21: the pins are the circuit of R141 and R142. -/
theorem outputPinValues : Obligations.OutputPinValues := fun _ _ =>
  ⟨rfl, rfl, rfl, rfl, fun _ _ => rfl, fun _ => rfl⟩

/-! ### Edges at which the consumer does not take the item -/

theorem stalled_pins {p : Pins} {s : State} (hvalid : s.obufValid = true) (hrst : p.rst = false) (hbusy : p.outReady = false) :
    inReady p s = false ∧ outValid p s = true ∧ inFire p s = false ∧ outFire p s = false := by
  simp [inReady, outValid, inFire, outFire, hvalid, hrst, hbusy]

theorem step_of_stalled {s : State} {p : Pins} (rest : List Pins) (hvalid : s.obufValid = true) (hrst : p.rst = false)
    (hbusy : p.outReady = false) : step (s.withEdges (p :: rest)) = .next (s.withEdges rest) := by
  obtain ⟨-, -, hin, hout⟩ := stalled_pins (s := s.withEdges (p :: rest)) hvalid hrst hbusy
  rw [step_of_not_inFire (withEdges_edges s _) hrst hin, hout]
  rfl

/-- Settles O23: a stalled edge only passes, by induction on the edges. -/
theorem offeredItemHeld : Obligations.OfferedItemHeld := by
  intro s ps rest hvalid hps
  refine ⟨fun p hp => ?_, ?_⟩
  · obtain ⟨hrst, hbusy⟩ := hps p hp
    obtain ⟨hin, hout, -⟩ := stalled_pins hvalid hrst hbusy
    exact ⟨hin, hout⟩
  · induction ps with
    | nil => rfl
    | cons p ps ih =>
      obtain ⟨⟨hrst, hbusy⟩, htail⟩ := List.forall_mem_cons.mp hps
      exact (run_succ_of_step (step_of_stalled (ps ++ rest) hvalid hrst hbusy) ps.length).trans (ih htail)

/-! ### Edges that feed units -/

theorem step_of_inFire {s : State} {p : Pins} {rest : List Pins} (hedges : s.host.edges = p :: rest)
    (hfire : inFire p s = true) :
    step s = .next ((transfers p (s.withEdges rest)).commit (decodeStep s.lut s.invertQ s.dec p.inBit)) := by
  rw [step_of_edges hedges]
  exact clockEdge_of_inFire (s := s.withEdges rest) hfire

/-- One accepted unit: the two levels take the same step, and its item comes after what was there before. -/
theorem exists_step_of_inFire {s : State} {p : Pins} {rest : List Pins} (hedges : s.host.edges = p :: rest)
    (hfire : inFire p s = true) :
    ∃ t, step s = .next t ∧ t.host.edges = rest ∧ t.lut = s.lut ∧ t.invertQ = s.invertQ ∧
      t.host.unitsTaken = s.host.unitsTaken ++ [p.inBit] ∧ t.dec = (decodeStep s.lut s.invertQ s.dec p.inBit).1 ∧
      t.host.itemsTaken ++ t.waiting =
        s.host.itemsTaken ++ s.waiting ++ (decodeStep s.lut s.invertQ s.dec p.inBit).2.toList := by
  have hfire' : inFire p (s.withEdges rest) = true := hfire
  refine ⟨_, step_of_inFire hedges hfire, by simp, by simp, by simp, ?_, by simp,
    commit_transfers_items_waiting hfire' _⟩
  rw [commit_host, transfers_units, hfire']
  rfl

/-- Units fed at one edge each do what `decodeUnits` does with them, by induction on the units. -/
theorem run_feed {s : State} {u : List Bool} {rest : List Pins} (hedges : s.host.edges = feed u ++ rest) :
    ∃ t, Host.Core.run Sys2Proof.core u.length s = .next t ∧
      t.host.edges = rest ∧ t.host.unitsTaken = s.host.unitsTaken ++ u ∧
      t.dec = (decodeUnits s.lut s.invertQ s.dec u).1 ∧
      t.host.itemsTaken ++ t.waiting = s.host.itemsTaken ++ s.waiting ++ (decodeUnits s.lut s.invertQ s.dec u).2 := by
  induction u generalizing s with
  | nil => exact ⟨s, rfl, hedges, (List.append_nil _).symm, rfl, (List.append_nil _).symm⟩
  | cons b u ih =>
    obtain ⟨s', hstep, hedges', hlut, hinv, hunits, hdec, hgiven⟩ :=
      exists_step_of_inFire (rest := feed u ++ rest) hedges (inFire_offerPins b s)
    obtain ⟨t, hrun, hrest, hunits', hdec', hgiven'⟩ := ih hedges'
    rw [offerPins_inBit] at hunits hdec hgiven
    rw [hlut, hinv, hdec] at hdec' hgiven'
    refine ⟨t, (run_succ_of_step hstep u.length).trans hrun, hrest, ?_, hdec', ?_⟩
    · rw [hunits', hunits, List.append_assoc, List.singleton_append]
    · rw [hgiven', hgiven, decodeUnits_cons, List.append_assoc]

/-- What leaves at the edge that makes an item is what waited before it. -/
theorem commit_transfers_of_item {p : Pins} {s : State} {r : DecodeState × Option Item} {it : Item}
    (hfire : inFire p s = true) (hitem : r.2 = some it) :
    ((transfers p s).commit r).waiting = [it] ∧
      ((transfers p s).commit r).host.itemsTaken = s.host.itemsTaken ++ (if outFire p s then s.waiting else []) := by
  refine ⟨?_, ?_⟩
  · rw [commit_waiting_of_empty (transfers_valid_of_inFire hfire), hitem]
    rfl
  · rw [commit_host, transfers_items]
    split_ifs with hout
    · obtain ⟨-, hvalid, -⟩ := (outFire_iff p s).mp hout
      rw [waiting_of_valid hvalid]
    · rfl

/-- Settles O56: a run of fed edges by `run_feed`, the edge that makes an item by `commit_transfers_of_item`. -/
theorem oneUnitPerEdge : Obligations.OneUnitPerEdge := by
  refine ⟨fun s u rest => run_feed (s := s.withEdges (feed u ++ rest)) rfl, fun s t p rest it hedges hfire hitem hstep => ?_⟩
  obtain rfl := Host.Outcome.next.inj ((step_of_inFire hedges hfire).symm.trans hstep)
  exact commit_transfers_of_item (s := s.withEdges rest) hfire hitem

/-! ### Nothing ever stops -/

theorem run_next (k : Nat) (s : State) : ∃ t, Host.Core.run Sys2Proof.core k s = .next t := by
  induction k generalizing s with
  | zero => exact ⟨s, rfl⟩
  | succ k ih =>
    obtain ⟨u, hstep, -⟩ := step_lut s
    rw [run_succ_of_step hstep]
    exact ih u

theorem decodeWideUnit_zero (lut : Memory) (inv : Bool) (d : DecodeState) :
    decodeWideUnit lut inv d 0 = .ok (decodeStep lut inv d false) := rfl

theorem decodeWideUnit_one (lut : Memory) (inv : Bool) (d : DecodeState) :
    decodeWideUnit lut inv d 1 = .ok (decodeStep lut inv d true) := rfl

theorem decodeWideUnit_of_two_le (lut : Memory) (inv : Bool) (d : DecodeState) {v : Nat} (h : 2 ≤ v) :
    decodeWideUnit lut inv d v = .error (.unitNotBinary v) := by
  have hunit : unitOf? v = none := by rw [unitOf?, if_neg (by omega), if_neg (by omega)]
  rw [decodeWideUnit, hunit]

/-- Settles O26: 0 and 1 are the two units, and from 2 on there is none. -/
theorem wideUnitsRefused : Obligations.WideUnitsRefused := fun lut inv d =>
  ⟨decodeWideUnit_zero lut inv d, decodeWideUnit_one lut inv d, fun _ => decodeWideUnit_of_two_le lut inv d⟩

theorem decodeWideUnit_refuses {lut : Memory} {inv : Bool} {d : DecodeState} {v : Nat} {r : Refusal}
    (h : decodeWideUnit lut inv d v = .error r) : r = .unitNotBinary v ∧ v ≠ 0 ∧ v ≠ 1 := by
  match v with
  | 0 => cases h
  | 1 => cases h
  | v + 2 =>
    rw [decodeWideUnit_of_two_le lut inv d (Nat.le_add_left 2 v)] at h
    exact ⟨(Except.error.inj h).symm, by omega, by omega⟩

theorem withTable_refuses {t : CodeTable} {s : State} {r : Refusal} (h : withTable t s = .refused r) :
    ∃ d, r = .codeTable d ∧ ¬ t.Accepted := by
  obtain ⟨-, hnext⟩ | ⟨hnot, d, hrefused⟩ := withTable_cases t s
  · rw [hnext] at h
    cases h
  · exact ⟨d, (Host.Outcome.refused.inj (hrefused.symm.trans h)).symm, hnot⟩

/-- Settles O25: a step and an instruction always have a next state, and the two refusals are the spec's. -/
theorem nothingEverStops : Obligations.NothingEverStops :=
  ⟨fun s => ⟨_, (step_lut s).choose_spec.1⟩, fun s k => run_next k s, exec_next,
    fun s p hrst hoffer hroom => (inFire_iff p s).mpr ⟨hrst, hoffer, hroom⟩,
    fun _ _ _ _ _ => decodeWideUnit_refuses, fun _ _ _ => withTable_refuses, fun _ _ _ => withTable_refuses⟩

end Sys2Proof.Machine
end
